-- ==== Sys2Proof/Word.lean ====
section
/-! DEFINITION. The data units of 00_scope.md section 5: Byte, Word, Nibble, Address. All unsigned; this hardware has no
signed quantity. -/

namespace Sys2Proof

/-- A Byte, 8 bits. -/
abbrev Byte := BitVec 8

/-- A Word, 16 bits: an instruction word, `pc`, `I`, a stack entry. -/
abbrev Word := BitVec 16

/-- A Nibble, 4 bits: a register index or a sprite height (30_encoding.md R61). -/
abbrev Nibble := BitVec 4

/-- An Address as an instruction field, 12 bits (30_encoding.md R61). -/
abbrev Addr := BitVec 12

end Sys2Proof
end

