-- ==== Sys2Proof/Syntax.lean ====
section
/-! DEFINITION. The abstract syntax of the 35 opcodes (30_encoding.md R63, R76): the operand groups as records with fields of
exact width, and one constructor per row of spec/opcode_table.json, named after the row's id. -/

namespace Sys2Proof

/-- Operand group `A`: `nnn` (R63). -/
structure GroupA where
  nnn : Addr
  deriving DecidableEq, Repr

/-- Operand group `V`: `x` (R63). -/
structure GroupV where
  x : Nibble
  deriving DecidableEq, Repr

/-- Operand group `VB`: `x`, `kk` (R63). -/
structure GroupVB where
  x : Nibble
  kk : Byte
  deriving DecidableEq, Repr

/-- Operand group `VV`: `x`, `y` (R63). -/
structure GroupVV where
  x : Nibble
  y : Nibble
  deriving DecidableEq, Repr

/-- Operand group `VVN`: `x`, `y`, `n` (R63). -/
structure GroupVVN where
  x : Nibble
  y : Nibble
  n : Nibble
  deriving DecidableEq, Repr

/-- An Instruction: an operator with its operands (R76). The constructors stand in the order of R66 to R69. -/
inductive Instr where
  -- level 1, group N (R66)
  | cls
  | ret
  -- level 2, group V (R67)
  | skpV (o : GroupV)
  | sknpV (o : GroupV)
  | movVDT (o : GroupV)
  | wkpV (o : GroupV)
  | movDTV (o : GroupV)
  | movSTV (o : GroupV)
  | addIV (o : GroupV)
  | fontV (o : GroupV)
  | bcdV (o : GroupV)
  | movMV (o : GroupV)
  | movVM (o : GroupV)
  -- level 3, group VV (R68)
  | seqVV (o : GroupVV)
  | movVV (o : GroupVV)
  | orVV (o : GroupVV)
  | andVV (o : GroupVV)
  | xorVV (o : GroupVV)
  | addVV (o : GroupVV)
  | subVV (o : GroupVV)
  | shrVV (o : GroupVV)
  | subnVV (o : GroupVV)
  | shlVV (o : GroupVV)
  | sneVV (o : GroupVV)
  -- level 4, groups A, VB, VVN (R69)
  | sysA (o : GroupA)
  | jmpA (o : GroupA)
  | callA (o : GroupA)
  | seqVB (o : GroupVB)
  | sneVB (o : GroupVB)
  | movVB (o : GroupVB)
  | addVB (o : GroupVB)
  | movIA (o : GroupA)
  | jmpV0A (o : GroupA)
  | rndVB (o : GroupVB)
  | drwVVN (o : GroupVVN)
  deriving DecidableEq, Repr

end Sys2Proof
end

