-- ==== Sys2Proof/WellFormed.lean ====
section
/-! DEFINITION. Which instructions are constructible (30_encoding.md R71). Every operand fits its field by its type; the two
SYS addresses whose words level 1 takes for CLS and RET are the only other exclusion. -/

namespace Sys2Proof

/-- The instruction is constructible (R71): it is not `(SYS, 0x0E0)` and not `(SYS, 0x0EE)`. -/
def Instr.wellFormed : Instr → Bool
  | .cls => true
  | .ret => true
  | .skpV _ => true
  | .sknpV _ => true
  | .movVDT _ => true
  | .wkpV _ => true
  | .movDTV _ => true
  | .movSTV _ => true
  | .addIV _ => true
  | .fontV _ => true
  | .bcdV _ => true
  | .movMV _ => true
  | .movVM _ => true
  | .seqVV _ => true
  | .movVV _ => true
  | .orVV _ => true
  | .andVV _ => true
  | .xorVV _ => true
  | .addVV _ => true
  | .subVV _ => true
  | .shrVV _ => true
  | .subnVV _ => true
  | .shlVV _ => true
  | .sneVV _ => true
  | .sysA o => o.nnn != 0x0E0 && o.nnn != 0x0EE
  | .jmpA _ => true
  | .callA _ => true
  | .seqVB _ => true
  | .sneVB _ => true
  | .movVB _ => true
  | .addVB _ => true
  | .movIA _ => true
  | .jmpV0A _ => true
  | .rndVB _ => true
  | .drwVVN _ => true

end Sys2Proof
end

