-- ==== Sys2Proof/Decode.lean ====
section
/-! DEFINITION. Decoding and encoding (30_encoding.md R60 to R73). The decoder is the cascade of R65 over the tables of R66 to
R69, kept as data; the encoder is written apart from those tables, from the match values of the same rules. -/

namespace Sys2Proof

/-! ## The bit codecs (R61, R62) -/

/-- A bit codec `(width, offset)` over a 16-bit container (R61). -/
structure Codec where
  width : Nat
  offset : Nat
  deriving DecidableEq, Repr

/-- `mask(wd) = 2^wd - 1` (R62). -/
def Codec.mask (c : Codec) : Word := BitVec.ofNat 16 (2 ^ c.width - 1)

/-- The codec's `decode(c) = (c >> o) & (2^wd - 1)` (R62). -/
def Codec.extract (c : Codec) (w : Word) : Word := (w >>> c.offset) &&& c.mask

/-- The codec's `encode(f) = (f & (2^wd - 1)) << o` (R62): masked, not validated. -/
def Codec.place (c : Codec) (f : Word) : Word := (f &&& c.mask) <<< c.offset

def addressCodec : Codec := ⟨12, 0⟩
def byteCodec : Codec := ⟨8, 0⟩
def vxCodec : Codec := ⟨4, 8⟩
def vyCodec : Codec := ⟨4, 4⟩
def nibbleCodec : Codec := ⟨4, 0⟩

/-! ## The operand groups (R63) -/

def GroupA.decode (w : Word) : GroupA := ⟨(addressCodec.extract w).setWidth 12⟩

def GroupV.decode (w : Word) : GroupV := ⟨(vxCodec.extract w).setWidth 4⟩

def GroupVB.decode (w : Word) : GroupVB := ⟨(vxCodec.extract w).setWidth 4, (byteCodec.extract w).setWidth 8⟩

def GroupVV.decode (w : Word) : GroupVV := ⟨(vxCodec.extract w).setWidth 4, (vyCodec.extract w).setWidth 4⟩

def GroupVVN.decode (w : Word) : GroupVVN :=
  ⟨(vxCodec.extract w).setWidth 4, (vyCodec.extract w).setWidth 4, (nibbleCodec.extract w).setWidth 4⟩

/-- The group's `encode()` is the OR of its fields' codec encodings (R63). -/
def GroupA.encode (o : GroupA) : Word := addressCodec.place (o.nnn.setWidth 16)

def GroupV.encode (o : GroupV) : Word := vxCodec.place (o.x.setWidth 16)

def GroupVB.encode (o : GroupVB) : Word := vxCodec.place (o.x.setWidth 16) ||| byteCodec.place (o.kk.setWidth 16)

def GroupVV.encode (o : GroupVV) : Word := vxCodec.place (o.x.setWidth 16) ||| vyCodec.place (o.y.setWidth 16)

def GroupVVN.encode (o : GroupVVN) : Word :=
  vxCodec.place (o.x.setWidth 16) ||| vyCodec.place (o.y.setWidth 16) ||| nibbleCodec.place (o.n.setWidth 16)

/-! ## The decode cascade (R65 to R70) -/

/-- The masks of the four levels (R65). -/
def levelMask1 : Word := 0xFFFF
def levelMask2 : Word := 0xF0FF
def levelMask3 : Word := 0xF00F
def levelMask4 : Word := 0xF000

/-- LEVEL1, mask 0xFFFF, group `N` (R66). -/
def level1 : List (Word × Instr) := [(0x00E0, .cls), (0x00EE, .ret)]

/-- LEVEL2, mask 0xF0FF, group `V` (R67). -/
def level2 : List (Word × (GroupV → Instr)) :=
  [(0xE09E, .skpV), (0xE0A1, .sknpV), (0xF007, .movVDT), (0xF00A, .wkpV), (0xF015, .movDTV), (0xF018, .movSTV),
   (0xF01E, .addIV), (0xF029, .fontV), (0xF033, .bcdV), (0xF055, .movMV), (0xF065, .movVM)]

/-- LEVEL3, mask 0xF00F, group `VV` (R68). -/
def level3 : List (Word × (GroupVV → Instr)) :=
  [(0x5000, .seqVV), (0x8000, .movVV), (0x8001, .orVV), (0x8002, .andVV), (0x8003, .xorVV), (0x8004, .addVV),
   (0x8005, .subVV), (0x8006, .shrVV), (0x8007, .subnVV), (0x800E, .shlVV), (0x9000, .sneVV)]

/-- LEVEL4, mask 0xF000, the group per opcode (R69). -/
def level4 : List (Word × (Word → Instr)) :=
  [(0x0000, fun w => .sysA (.decode w)), (0x1000, fun w => .jmpA (.decode w)), (0x2000, fun w => .callA (.decode w)),
   (0x3000, fun w => .seqVB (.decode w)), (0x4000, fun w => .sneVB (.decode w)), (0x6000, fun w => .movVB (.decode w)),
   (0x7000, fun w => .addVB (.decode w)), (0xA000, fun w => .movIA (.decode w)), (0xB000, fun w => .jmpV0A (.decode w)),
   (0xC000, fun w => .rndVB (.decode w)), (0xD000, fun w => .drwVVN (.decode w))]

/-- The row of a level whose match value is the masked word. -/
def lookupRow {α : Type} (key : Word) : List (Word × α) → Option α
  | [] => none
  | (m, a) :: rows => if key = m then some a else lookupRow key rows

/-- `Decode(w)` (R65): the four levels in order, the first match wins; a word that no level matches gives `none` (R70). -/
def decodeWord (w : Word) : Option Instr :=
  match lookupRow (w &&& levelMask1) level1 with
  | some i => some i
  | none =>
    match lookupRow (w &&& levelMask2) level2 with
    | some f => some (f (GroupV.decode w))
    | none =>
      match lookupRow (w &&& levelMask3) level3 with
      | some f => some (f (GroupVV.decode w))
      | none =>
        match lookupRow (w &&& levelMask4) level4 with
        | some f => some (f w)
        | none => none

/-- Why bytes give no instruction. -/
inductive DecodeReject where
  /-- Fewer than the two bytes of an instruction (R60). -/
  | truncated
  /-- No level matches the word (R70, R72). -/
  | noInstruction (w : Word)
  deriving DecidableEq, Repr

/-- Two bytes as a word, the byte at the lower address high (20_memory.md R41). -/
def joinBytes (hi lo : Byte) : Word := hi ++ lo

/-- A word as its two bytes in address order (20_memory.md R41). -/
def wordBytes (w : Word) : List Byte := [w.extractLsb' 8 8, w.extractLsb' 0 8]

/-- Decoding of any bytes: the instruction and the bytes after it, or the reason there is none. -/
def decode : List Byte → Except DecodeReject (Instr × List Byte)
  | hi :: lo :: rest =>
    match decodeWord (joinBytes hi lo) with
    | some i => .ok (i, rest)
    | none => .error (.noInstruction (joinBytes hi lo))
  | [_] => .error .truncated
  | [] => .error .truncated

/-- The instruction the decoder reads from the bits `w` of a table row of `nbits` bits. -/
def decodeTableWord (nbits w : Nat) : Option Instr :=
  match decode (wordBytes (BitVec.ofNat 16 (w % 2 ^ nbits))) with
  | .ok (i, _) => some i
  | .error _ => none

/-! ## The encoder (R64) -/

/-- The opcode's fixed bits, its row's match value (R66 to R69). -/
def Instr.matchValue : Instr → Word
  | .cls => 0x00E0
  | .ret => 0x00EE
  | .skpV _ => 0xE09E
  | .sknpV _ => 0xE0A1
  | .movVDT _ => 0xF007
  | .wkpV _ => 0xF00A
  | .movDTV _ => 0xF015
  | .movSTV _ => 0xF018
  | .addIV _ => 0xF01E
  | .fontV _ => 0xF029
  | .bcdV _ => 0xF033
  | .movMV _ => 0xF055
  | .movVM _ => 0xF065
  | .seqVV _ => 0x5000
  | .movVV _ => 0x8000
  | .orVV _ => 0x8001
  | .andVV _ => 0x8002
  | .xorVV _ => 0x8003
  | .addVV _ => 0x8004
  | .subVV _ => 0x8005
  | .shrVV _ => 0x8006
  | .subnVV _ => 0x8007
  | .shlVV _ => 0x800E
  | .sneVV _ => 0x9000
  | .sysA _ => 0x0000
  | .jmpA _ => 0x1000
  | .callA _ => 0x2000
  | .seqVB _ => 0x3000
  | .sneVB _ => 0x4000
  | .movVB _ => 0x6000
  | .addVB _ => 0x7000
  | .movIA _ => 0xA000
  | .jmpV0A _ => 0xB000
  | .rndVB _ => 0xC000
  | .drwVVN _ => 0xD000

/-- The mask of the opcode's level (R66 to R69). -/
def Instr.mask : Instr → Word
  | .cls => levelMask1
  | .ret => levelMask1
  | .skpV _ => levelMask2
  | .sknpV _ => levelMask2
  | .movVDT _ => levelMask2
  | .wkpV _ => levelMask2
  | .movDTV _ => levelMask2
  | .movSTV _ => levelMask2
  | .addIV _ => levelMask2
  | .fontV _ => levelMask2
  | .bcdV _ => levelMask2
  | .movMV _ => levelMask2
  | .movVM _ => levelMask2
  | .seqVV _ => levelMask3
  | .movVV _ => levelMask3
  | .orVV _ => levelMask3
  | .andVV _ => levelMask3
  | .xorVV _ => levelMask3
  | .addVV _ => levelMask3
  | .subVV _ => levelMask3
  | .shrVV _ => levelMask3
  | .subnVV _ => levelMask3
  | .shlVV _ => levelMask3
  | .sneVV _ => levelMask3
  | .sysA _ => levelMask4
  | .jmpA _ => levelMask4
  | .callA _ => levelMask4
  | .seqVB _ => levelMask4
  | .sneVB _ => levelMask4
  | .movVB _ => levelMask4
  | .addVB _ => levelMask4
  | .movIA _ => levelMask4
  | .jmpV0A _ => levelMask4
  | .rndVB _ => levelMask4
  | .drwVVN _ => levelMask4

/-- The operand bits of the instruction (R63); group `N` has none. -/
def Instr.operandBits : Instr → Word
  | .cls => 0
  | .ret => 0
  | .skpV o => o.encode
  | .sknpV o => o.encode
  | .movVDT o => o.encode
  | .wkpV o => o.encode
  | .movDTV o => o.encode
  | .movSTV o => o.encode
  | .addIV o => o.encode
  | .fontV o => o.encode
  | .bcdV o => o.encode
  | .movMV o => o.encode
  | .movVM o => o.encode
  | .seqVV o => o.encode
  | .movVV o => o.encode
  | .orVV o => o.encode
  | .andVV o => o.encode
  | .xorVV o => o.encode
  | .addVV o => o.encode
  | .subVV o => o.encode
  | .shrVV o => o.encode
  | .subnVV o => o.encode
  | .shlVV o => o.encode
  | .sneVV o => o.encode
  | .sysA o => o.encode
  | .jmpA o => o.encode
  | .callA o => o.encode
  | .seqVB o => o.encode
  | .sneVB o => o.encode
  | .movVB o => o.encode
  | .addVB o => o.encode
  | .movIA o => o.encode
  | .jmpV0A o => o.encode
  | .rndVB o => o.encode
  | .drwVVN o => o.encode

/-- `encode(op, operands) = match(op) | group_encode(operands)` (R64). -/
def encode (i : Instr) : Word := i.matchValue ||| i.operandBits

end Sys2Proof
end

