-- ==== Sys2Proof/Config.lean ====
section
/-! DEFINITION. The four open parameters of 00_scope.md R3. None has a body: nothing can be proved that depends on a value
chosen for one, so a theorem holds for every value of it. -/

namespace Sys2Proof

/-- Which register SHR and SHL shift (42_alu.md R129, R131; 92_eei_decisions.md D10). -/
inductive ShiftSrc where
  | vx
  | vy
  deriving DecidableEq, Repr, Inhabited

/-- `SHIFT_SRC` (R3). Free: log 3. -/
opaque Config.shiftSrc : ShiftSrc

/-- `FONT_ROM` (R3), the 80 bytes at 0x100 to 0x14F after reset. Free: log 1. -/
opaque Config.fontRom : Vector Byte 80

/-- `MASTER_CLOCK_RATE_RESET` (R3), the value of `master_clock_rate` after reset. Free: log 2. -/
opaque Config.masterClockRateReset : BitVec 32

/-- `rnd_in` (R3, R25): the byte that the k-th draw of RND reads, under no law. Free: log 4. -/
opaque Config.rndIn : Nat → Byte

end Sys2Proof
end

