-- ==== Sys2Proof/Machine/State.lean ====
section
/-! DEFINITION. The state of the machine (10_state.md R10 to R31), its reset value (R30), and the reasons a step can stop. State
is plain data and holds every element of the table of R30; its one further field, `draws`, is the model's own. -/

namespace Sys2Proof.Machine

/-- The fault types of 60_exceptions.md R170, in the document's order. `invalidPixel` is declared and never raised (R171, U1). -/
inductive FaultType where
  | invalidAddress
  | invalidInstruction
  | invalidPixel
  | emptyStack
  | fullStack
  | invalidDigit
  deriving DecidableEq, Repr

/-- The fault latch `FAULT` (10_state.md R22): with `valid` false the machine runs and the other two fields mean nothing. `type` is
the 3-bit field: the core writes the codes of `FaultType` into it, the host any value of the width (R27; log 8). -/
structure FaultLatch where
  valid : Bool
  type : BitVec 3
  addr : Word
  deriving DecidableEq, Repr

/-- The 4096-byte memory (10_state.md R16), as the bytes that differ from what an unlisted address reads as, addresses
strictly rising (log 5; the form is `Memory.wf` in Machine/Ops.lean). -/
abbrev Memory := List Host.Cell

/-- The display (10_state.md R20), row by row from the top, each row its 64 pixels from the left; true is lit. -/
abbrev Display := Vector (Vector Bool 64) 32

/-- The machine state: the table of 10_state.md R30, and `draws`. -/
structure State where
  /-- V0 to VF (R10). -/
  v : Vector Byte 16
  /-- The memory index register `I` (R13). -/
  i : Word
  /-- The delay timer `DT` (R14). -/
  dt : Byte
  /-- The sound timer `ST` (R14). -/
  st : Byte
  /-- The program counter (R15). -/
  pc : Word
  /-- The memory (R16). -/
  mem : Memory
  /-- The stack entries (R17); those at `sp` and above are dead. -/
  stack : Vector Word 16
  /-- How many stack entries are in use, 0 to 16 (R17; log 7). -/
  sp : Fin 17
  /-- The key register `KEYS` (R18): bit k is 1 while key k is pressed. -/
  keys : Word
  /-- The display (R20). -/
  disp : Display
  /-- The fault latch (R22). -/
  fault : FaultLatch
  /-- `master_clock_rate` (R23). -/
  masterClockRate : BitVec 32
  /-- The delay timer's accumulator `dt_acc` (R24; log 6). -/
  dtAcc : Nat
  /-- The sound timer's accumulator `st_acc` (R24; log 6). -/
  stAcc : Nat
  /-- THE MODEL'S OWN: how many draws of `rnd_in` RND has taken (R25; log 4). -/
  draws : Nat
  deriving DecidableEq, Repr

/-- The state after reset (10_state.md R30, 70_reset_and_hazards.md R200). Memory lists nothing: an unlisted address reads as its
reset contents, the font bytes at 0x100 to 0x14F and zero elsewhere. -/
def State.reset : State where
  v := Vector.replicate 16 0
  i := 0
  dt := 0
  st := 0
  pc := 0x0200
  mem := []
  stack := Vector.replicate 16 0
  sp := 0
  keys := 0
  disp := Vector.replicate 32 (Vector.replicate 64 false)
  fault := ⟨false, 0, 0⟩
  masterClockRate := Config.masterClockRateReset
  dtAcc := 0
  stAcc := 0
  draws := 0

/-- Why the model stops with a fault. The faults of the hardware are NOT here: latching one is a next state (60_exceptions.md
R174). -/
inductive Fault where
  /-- A checked memory primitive was used outside its requirement (20_memory.md R45: "A model should make the primitive itself
  checked"). Raised by the operations of Machine/Ops.lean that read or write bytes at `I`, after the rule's own bounds check has
  passed, so never in fact. Safe: the model would stop where the hardware goes on. -/
  | memoryBounds
  deriving DecidableEq, Repr

/-- Why the model refuses an instruction. -/
inductive Refusal where
  /-- An arm of `exec` without a meaning. No arm uses it: all 35 opcodes are modelled. Safe. -/
  | notModelled (mnemonic : String)
  deriving DecidableEq, Repr

/-- The outcome of a meaning. -/
abbrev Result := Host.Outcome State Fault Refusal

end Sys2Proof.Machine
end

