-- ==== Sys2Proof/Machine/Ops.lean ====
section
/-! DEFINITION. The named operations over the state: memory, stack, the program counter, taking a fault and clearing it, the
timers, fetching, and what a machine cycle does around the execute routine. -/

namespace Sys2Proof.Machine

/-! ## Memory (20_memory.md R40 to R47) -/

/-- `InBounds(a, n)` on unbounded integers (R44); `MEM_SIZE` is 4096 (00_scope.md R2). -/
abbrev InBounds (a n : Nat) : Prop := a + n ≤ 4096

/-- What an address that the list does not name reads as: its reset contents (10_state.md R30). -/
def Memory.unlisted (a : Nat) : Byte :=
  if h : 0x100 ≤ a ∧ a < 0x150 then Config.fontRom[a - 0x100]'(by omega) else 0

/-- The byte held for an address. -/
def Memory.lookup : Memory → Nat → Byte
  | [], a => Memory.unlisted a
  | (b, v) :: m, a => if b = a then v else Memory.lookup m a

/-- Put a byte before the first entry of a higher address. -/
def Memory.insertCell : Memory → Nat → Byte → Memory
  | [], a, v => [(a, v)]
  | (b, w) :: m, a, v => if a < b then (a, v) :: (b, w) :: m else (b, w) :: Memory.insertCell m a v

/-- Store a byte and keep the canonical form: an address that holds what it would read as unlisted is not listed. -/
def Memory.store (m : Memory) (a : Nat) (v : Byte) : Memory :=
  let rest := List.filter (fun c => c.1 != a) m
  if v = Memory.unlisted a then rest else Memory.insertCell rest a v

/-- The canonical form: addresses strictly rising and below 4096, no entry equal to what its address reads as unlisted. -/
abbrev Memory.wf (m : Memory) : Prop :=
  List.Pairwise (fun c d : Host.Cell => c.1 < d.1) m ∧ ∀ c ∈ m, c.1 < 4096 ∧ c.2 ≠ Memory.unlisted c.1

/-- `MemRead(a, 1)` (R45), checked: `none` outside memory. -/
def Memory.read (m : Memory) (a : Nat) : Option Byte :=
  if InBounds a 1 then some (m.lookup a) else none

/-- `MemWrite(a, 1, v)` (R45), checked: `none` outside memory. -/
def Memory.write (m : Memory) (a : Nat) (v : Byte) : Option Memory :=
  if InBounds a 1 then some (m.store a v) else none

/-- `MemRead(a, 2) = mem[a] ++ mem[a + 1]`, big-endian (R41, R45). -/
def Memory.readWord (m : Memory) (a : Nat) : Option Word :=
  match m.read a, m.read (a + 1) with
  | some hi, some lo => some (joinBytes hi lo)
  | _, _ => none

/-- `n` single-byte reads at `a`, `a + 1`, ... (43_index_memory.md R146). -/
def Memory.readBytes (m : Memory) (a : Nat) : Nat → Option (List Byte)
  | 0 => some []
  | n + 1 =>
    match m.read a, Memory.readBytes m (a + 1) n with
    | some b, some bs => some (b :: bs)
    | _, _ => none

/-- Single-byte writes of `bs` at `a`, `a + 1`, ... (43_index_memory.md R146). -/
def Memory.writeBytes (m : Memory) (a : Nat) : List Byte → Option Memory
  | [] => some m
  | b :: bs =>
    match m.write a b with
    | some m' => Memory.writeBytes m' (a + 1) bs
    | none => none

/-! ## The stack (10_state.md R17) -/

/-- `Push(v)`: succeeds iff `sp < 16`. -/
def State.push (s : State) (v : Word) : Option State :=
  if h : s.sp.val < 16 then
    some { s with stack := s.stack.set s.sp.val v h, sp := ⟨s.sp.val + 1, by omega⟩ }
  else none

/-- `Pop()`: succeeds iff `sp > 0`; the popped slot keeps its contents (41_control.md R101). -/
def State.pop (s : State) : Option (Word × State) :=
  if h : 0 < s.sp.val then
    some (s.stack[s.sp.val - 1]'(by omega), { s with sp := ⟨s.sp.val - 1, by omega⟩ })
  else none

/-! ## The program counter (10_state.md R15, 40_cycle.md R94) -/

/-- `pc <- target`. -/
def State.jump (s : State) (target : Word) : State := { s with pc := target }

/-- `pc <- pc0 + 2`. -/
def State.advance (s : State) : State := { s with pc := s.pc + 2 }

/-- A conditional skip (41_control.md R109): `pc0 + 4` when the condition holds, else `pc0 + 2`. -/
def State.skipIf (s : State) (c : Bool) : State := { s with pc := if c then s.pc + 4 else s.pc + 2 }

/-! ## Taking a fault, and clearing it (60_exceptions.md R170 to R177) -/

/-- The 3-bit code of a fault type (R170). -/
def FaultType.code : FaultType → BitVec 3
  | .invalidAddress => 0
  | .invalidInstruction => 1
  | .invalidPixel => 2
  | .emptyStack => 3
  | .fullStack => 4
  | .invalidDigit => 5

/-- Fault entry (R174): the latch takes the type's code and `pc0`; nothing else changes. -/
def State.latchFault (s : State) (t : FaultType) : State := { s with fault := ⟨true, t.code, s.pc⟩ }

/-- `raise t` as the outcome of an execute routine (00_scope.md section 5, 40_cycle.md R95). -/
def raise (t : FaultType) (s : State) : Result := .next (s.latchFault t)

/-- The host's clearing of the latch (R176), the machine's only return from a fault: `FAULT.valid <- 0` and nothing else. -/
def State.clearFault (s : State) : State := { s with fault := { s.fault with valid := false } }

/-! ## Bytes at `I` (43_index_memory.md R146) -/

/-- Read `n` bytes at `I`, or raise `InvalidAddress` when the range leaves memory, before anything is read (20_memory.md R44). -/
def withBytesAtI (n : Nat) (s : State) (use : List Byte → State) : Result :=
  if InBounds s.i.toNat n then
    match s.mem.readBytes s.i.toNat n with
    | some bs => .next (use bs)
    | none => .fault .memoryBounds
  else raise .invalidAddress s

/-- Write `bs` at `I` and go on to the next instruction, or raise `InvalidAddress` when the range leaves memory, before anything
is written (20_memory.md R44). -/
def storeBytesAtI (bs : List Byte) (s : State) : Result :=
  if InBounds s.i.toNat bs.length then
    match s.mem.writeBytes s.i.toNat bs with
    | some m => .next (State.advance { s with mem := m })
    | none => .fault .memoryBounds
  else raise .invalidAddress s

/-! ## The random draw (10_state.md R25) -/

/-- The byte `rnd_in` gives now. -/
def State.draw (s : State) : Byte := Config.rndIn s.draws

/-- The state after one draw. -/
def State.drawn (s : State) : State := { s with draws := s.draws + 1 }

/-! ## The timers (60_exceptions.md R181) -/

/-- `TIMER_RATE` (00_scope.md R2). -/
abbrev timerRate : Nat := 60

/-- The test of R181 on an incremented accumulator: `master_clock_rate / acc <= 60`, floor division. -/
def timerDue (rate : BitVec 32) (acc : Nat) : Bool := decide (rate.toNat / acc ≤ timerRate)

/-- An accumulator after a tick. -/
def nextAcc (rate : BitVec 32) (acc : Nat) : Nat := if timerDue rate (acc + 1) then 0 else acc + 1

/-- A timer after a tick: one less when the test holds, floor at zero. -/
def nextTimer (rate : BitVec 32) (acc : Nat) (t : Byte) : Byte :=
  if 0 < t.toNat ∧ timerDue rate (acc + 1) = true then t - 1 else t

/-- `TimerTick()` (R181). -/
def State.timerTick (s : State) : State :=
  { s with
    dt := nextTimer s.masterClockRate s.dtAcc s.dt
    dtAcc := nextAcc s.masterClockRate s.dtAcc
    st := nextTimer s.masterClockRate s.stAcc s.st
    stAcc := nextAcc s.masterClockRate s.stAcc }

/-! ## The machine cycle around the execute routine (40_cycle.md R90 to R97) -/

/-- The fetched word, `none` when `pc0 + 2 > 4096` (R92). -/
def State.fetch (s : State) : Option Word :=
  if InBounds s.pc.toNat 2 then s.mem.readWord s.pc.toNat else none

/-- What the cycle does after the routine (R95, R96): nothing more when the routine raised (the machine was running, so the
latch is valid iff it did), else `TimerTick()`. -/
def finishCycle : Result → Result
  | .next t => .next (if t.fault.valid then t else t.timerTick)
  | .fault f => .fault f
  | .refused r => .refused r

/-- The cycle's return value `ok` (R97), from the states before and after: false when the machine was already faulted and
when this cycle latched a fault. -/
def cycleOk (before after : State) : Bool := !before.fault.valid && !after.fault.valid

/-- The state with a word's two bytes placed where the next fetch reads; bytes beyond memory are not placed. -/
def State.placeWord (s : State) (w : Word) : State :=
  match s.mem.writeBytes s.pc.toNat (wordBytes w) with
  | some m => { s with mem := m }
  | none => s

end Sys2Proof.Machine
end

