-- ==== Sys2Proof/Machine/Operands.lean ====
section
/-! DEFINITION. The operand forms: the general registers through their 4-bit index, the bulk transfers' register lists, the index
register's immediate, the pixels, the keys. -/

namespace Sys2Proof.Machine

/-! ## General registers (10_state.md R10, R12) -/

/-- `V[x]`. -/
def State.readV (s : State) (x : Nibble) : Byte := s.v[x.toNat]'(by have := x.isLt; omega)

/-- `V[x] <- b`. -/
def State.writeV (s : State) (x : Nibble) (b : Byte) : State :=
  { s with v := s.v.set x.toNat b (by have := x.isLt; omega) }

/-- The index of VF (R11). -/
def vf : Nibble := 15

/-- V0 to Vx in order (43_index_memory.md R144). -/
def State.firstRegs (s : State) (x : Nibble) : List Byte := s.v.toList.take (x.toNat + 1)

/-- The register file after a bulk load of `bs` from V0 on. -/
def loadedRegs (v : Vector Byte 16) (bs : List Byte) : Vector Byte 16 :=
  Vector.ofFn fun k : Fin 16 => (bs[k.val]?).getD v[k]

/-- `V[k] <- bs[k]` for every k that `bs` has; the other registers are untouched (43_index_memory.md R145). -/
def State.loadRegs (s : State) (bs : List Byte) : State := { s with v := loadedRegs s.v bs }

/-! ## The index register (10_state.md R13) -/

/-- `I <- w`. -/
def State.writeI (s : State) (w : Word) : State := { s with i := w }

/-- `FONT_BASE + FONT_GLYPH_BYTES * d` (43_index_memory.md R142). -/
def glyphAddr (d : Byte) : Word := BitVec.ofNat 16 (0x100 + 5 * d.toNat)

/-- The three decimal digits of a byte, hundreds first (43_index_memory.md R143). -/
def bcdDigits (b : Byte) : List Byte :=
  [BitVec.ofNat 8 (b.toNat / 100), BitVec.ofNat 8 (b.toNat / 10 % 10), BitVec.ofNat 8 (b.toNat % 10)]

/-! ## Pixels (10_state.md R20, R21) -/

/-- `Pixel(x, y)` read: `none` is the null pixel, outside 64 by 32. -/
def Display.pixel (d : Display) (x y : Nat) : Option Bool :=
  if h : x < 64 ∧ y < 32 then some ((d[y]'h.2)[x]'h.1) else none

/-- `disp[x][y] <- b`; a null pixel is not written. -/
def Display.setPixel (d : Display) (x y : Nat) (b : Bool) : Display :=
  if h : x < 64 ∧ y < 32 then d.set y ((d[y]'h.2).set x b h.1) h.2 else d

/-- The dark display. -/
def Display.dark : Display := Vector.replicate 32 (Vector.replicate 64 false)

/-! ## Keys (45_keypad_timers.md R162, R166) -/

/-- `Pressed(v)` (R166): the whole byte is the key index; 16 and above is never pressed. -/
def State.pressed (s : State) (b : Byte) : Bool := decide (b.toNat < 16) && s.keys.getLsbD b.toNat

/-- The least key that is pressed (R162), `none` when none is. -/
def leastKey (keys : Word) : Option Nat := (List.range 16).find? fun k => keys.getLsbD k

end Sys2Proof.Machine
end

