-- ==== Sys2Proof/Machine/Flags.lean ====
section
/-! DEFINITION. The flag computations (42_alu.md R120, R133) and the order in which a flag-setting opcode writes. -/

namespace Sys2Proof.Machine

/-- A flag as the byte VF takes. -/
def flagByte (c : Bool) : Byte := if c then 1 else 0

/-- The carry of ADD Vx,Vy: the true sum is above 255 (R127). -/
def carryOut (a b : Byte) : Bool := decide (a.toNat + b.toNat > 255)

/-- The borrow-complement of `a - b`: no borrow occurs (R128, R133). -/
def noBorrow (a b : Byte) : Bool := decide (b.toNat ≤ a.toNat)

/-- The bit SHR shifts out (R129). -/
def shiftedOutLow (a : Byte) : Bool := a.getLsbD 0

/-- The bit SHL shifts out (R131). -/
def shiftedOutHigh (a : Byte) : Bool := a.getLsbD 7

/-- Flag to VF first, result to `V[x]` second (R120), so the result wins when `x` is VF. -/
def State.writeFlagThenResult (s : State) (x : Nibble) (flag : Bool) (r : Byte) : State :=
  (s.writeV vf (flagByte flag)).writeV x r

/-- The source of SHR and SHL, by the open parameter `SHIFT_SRC` (R129, R131). -/
def shiftOperand (a b : Byte) : Byte := if Config.shiftSrc = .vy then b else a

end Sys2Proof.Machine
end

