-- ==== Sys2Proof/Machine/Alu.lean ====
section
/-! DEFINITION. The execute routines of 42_alu.md: the register moves, the ALU operations and RND. -/

namespace Sys2Proof.Machine

/-- MOV Vx,byte (R121). -/
def execMovVB (o : GroupVB) (s : State) : Result := .next (s.writeV o.x o.kk).advance

/-- ADD Vx,byte (R122): no flag. -/
def execAddVB (o : GroupVB) (s : State) : Result := .next (s.writeV o.x (s.readV o.x + o.kk)).advance

/-- MOV Vx,Vy (R123). -/
def execMovVV (o : GroupVV) (s : State) : Result := .next (s.writeV o.x (s.readV o.y)).advance

/-- OR Vx,Vy (R124): no flag. -/
def execOrVV (o : GroupVV) (s : State) : Result := .next (s.writeV o.x (s.readV o.x ||| s.readV o.y)).advance

/-- AND Vx,Vy (R125): no flag. -/
def execAndVV (o : GroupVV) (s : State) : Result := .next (s.writeV o.x (s.readV o.x &&& s.readV o.y)).advance

/-- XOR Vx,Vy (R126): no flag. -/
def execXorVV (o : GroupVV) (s : State) : Result := .next (s.writeV o.x (s.readV o.x ^^^ s.readV o.y)).advance

/-- ADD Vx,Vy (R127). -/
def execAddVV (o : GroupVV) (s : State) : Result :=
  let a := s.readV o.x
  let b := s.readV o.y
  .next (s.writeFlagThenResult o.x (carryOut a b) (a + b)).advance

/-- SUB Vx,Vy (R128). -/
def execSubVV (o : GroupVV) (s : State) : Result :=
  let a := s.readV o.x
  let b := s.readV o.y
  .next (s.writeFlagThenResult o.x (noBorrow a b) (a - b)).advance

/-- SHR Vx,Vy (R129). -/
def execShrVV (o : GroupVV) (s : State) : Result :=
  let a := shiftOperand (s.readV o.x) (s.readV o.y)
  .next (s.writeFlagThenResult o.x (shiftedOutLow a) (a >>> 1)).advance

/-- SUBN Vx,Vy (R130): Vy minus Vx, into Vx. -/
def execSubnVV (o : GroupVV) (s : State) : Result :=
  let a := s.readV o.x
  let b := s.readV o.y
  .next (s.writeFlagThenResult o.x (noBorrow b a) (b - a)).advance

/-- SHL Vx,Vy (R131). -/
def execShlVV (o : GroupVV) (s : State) : Result :=
  let a := shiftOperand (s.readV o.x) (s.readV o.y)
  .next (s.writeFlagThenResult o.x (shiftedOutHigh a) (a <<< 1)).advance

/-- RND Vx,byte (R132): a fresh draw AND kk. -/
def execRndVB (o : GroupVB) (s : State) : Result := .next (s.drawn.writeV o.x (s.draw &&& o.kk)).advance

end Sys2Proof.Machine
end

