-- ==== Sys2Proof/Machine/Control.lean ====
section
/-! DEFINITION. The execute routines of 41_control.md: SYS, RET, JMP, CALL, SEQ, SNE, JMP V0. -/

namespace Sys2Proof.Machine

/-- SYS addr (R100): always `InvalidInstruction`. -/
def execSysA (_o : GroupA) (s : State) : Result := raise .invalidInstruction s

/-- RET (R101). -/
def execRet (s : State) : Result :=
  match s.pop with
  | some (t, s') => .next (s'.jump t)
  | none => raise .emptyStack s

/-- JMP addr (R102). -/
def execJmpA (o : GroupA) (s : State) : Result := .next (s.jump (o.nnn.setWidth 16))

/-- CALL addr (R103). -/
def execCallA (o : GroupA) (s : State) : Result :=
  match s.push (s.pc + 2) with
  | some s' => .next (s'.jump (o.nnn.setWidth 16))
  | none => raise .fullStack s

/-- SEQ Vx,byte (R104). -/
def execSeqVB (o : GroupVB) (s : State) : Result := .next (s.skipIf (s.readV o.x == o.kk))

/-- SNE Vx,byte (R105). -/
def execSneVB (o : GroupVB) (s : State) : Result := .next (s.skipIf (s.readV o.x != o.kk))

/-- SEQ Vx,Vy (R106). -/
def execSeqVV (o : GroupVV) (s : State) : Result := .next (s.skipIf (s.readV o.x == s.readV o.y))

/-- SNE Vx,Vy (R107). -/
def execSneVV (o : GroupVV) (s : State) : Result := .next (s.skipIf (s.readV o.x != s.readV o.y))

/-- JMP V0,addr (R108): 16 bits, not masked to 12. -/
def execJmpV0A (o : GroupA) (s : State) : Result :=
  .next (s.jump (o.nnn.setWidth 16 + (s.readV 0).setWidth 16))

end Sys2Proof.Machine
end

