-- ==== Sys2Proof/Machine/Display.lean ====
section
/-! DEFINITION. The execute routines of 44_display.md: CLS and DRW, with DRW's loops. -/

namespace Sys2Proof.Machine

/-- CLS (R150). -/
def execCls (s : State) : Result := .next (State.advance { s with disp := Display.dark })

/-- One sprite bit that is 1 at pixel (px, py) (R151): the pixel is flipped and `hit` is set if it was lit; a null pixel is
skipped. The pair is the display and `hit`. -/
def plotBit (acc : Display × Bool) (px py : Nat) : Display × Bool :=
  match acc.1.pixel px py with
  | some lit => (acc.1.setPixel px py (!lit), acc.2 || lit)
  | none => acc

/-- One sprite row: bit 7 is the leftmost pixel; a 0 bit neither draws nor collides (R151). -/
def plotRow (x0 py : Nat) (b : Byte) (acc : Display × Bool) : Display × Bool :=
  (List.range 8).foldl (fun acc col => if b.getLsbD (7 - col) then plotBit acc (x0 + col) py else acc) acc

/-- The rows of a sprite, from row `py` downward (R151). -/
def plotRows (x0 : Nat) : Nat → List Byte → Display × Bool → Display × Bool
  | _, [], acc => acc
  | py, b :: bs, acc => plotRows x0 (py + 1) bs (plotRow x0 py b acc)

/-- The state after the sprite `rows` is drawn with its origin at `(x0, y0)`: the display, VF and `pc` (R151). -/
def State.drawSprite (s : State) (x0 y0 : Nat) (rows : List Byte) : State :=
  let r := plotRows x0 y0 rows (s.disp, false)
  (State.writeV { s with disp := r.1 } vf (flagByte r.2)).advance

/-- The routine of R151 for a height `n` stored wider than a nibble: above 15 is `InvalidInstruction`, which comes before the
bounds test (60_exceptions.md R178). -/
def drawAt (x y : Nibble) (n : Nat) (s : State) : Result :=
  if n > 15 then raise .invalidInstruction s
  else withBytesAtI n s fun rows => s.drawSprite (s.readV x).toNat (s.readV y).toNat rows

/-- DRW Vx,Vy,n (R151). -/
def execDrwVVN (o : GroupVVN) (s : State) : Result := drawAt o.x o.y o.n.toNat s

end Sys2Proof.Machine
end

