-- ==== Sys2Proof/Machine/IndexMemory.lean ====
section
/-! DEFINITION. The execute routines of 43_index_memory.md: MOV I, ADD I, FONT, BCD and the two bulk MOVs. None changes `I` by a
transfer (R146). -/

namespace Sys2Proof.Machine

/-- MOV I,addr (R140). -/
def execMovIA (o : GroupA) (s : State) : Result := .next (s.writeI (o.nnn.setWidth 16)).advance

/-- ADD I,Vx (R141): modulo 65536, no flag. -/
def execAddIV (o : GroupV) (s : State) : Result := .next (s.writeI (s.i + (s.readV o.x).setWidth 16)).advance

/-- FONT Vx (R142). -/
def execFontV (o : GroupV) (s : State) : Result :=
  if (s.readV o.x).toNat ≥ 16 then raise .invalidDigit s
  else .next (s.writeI (glyphAddr (s.readV o.x))).advance

/-- BCD Vx (R143). -/
def execBcdV (o : GroupV) (s : State) : Result := storeBytesAtI (bcdDigits (s.readV o.x)) s

/-- MOV (I),V0..Vx (R144). -/
def execMovMV (o : GroupV) (s : State) : Result := storeBytesAtI (s.firstRegs o.x) s

/-- MOV V0..Vx,(I) (R145). -/
def execMovVM (o : GroupV) (s : State) : Result :=
  withBytesAtI (o.x.toNat + 1) s fun bs => (s.loadRegs bs).advance

end Sys2Proof.Machine
end

