-- ==== Sys2Proof/Machine/KeypadTimers.lean ====
section
/-! DEFINITION. The execute routines of 45_keypad_timers.md: SKP, SKNP, WKP and the timer moves. -/

namespace Sys2Proof.Machine

/-- SKP Vx (R160). -/
def execSkpV (o : GroupV) (s : State) : Result := .next (s.skipIf (s.pressed (s.readV o.x)))

/-- SKNP Vx (R161). -/
def execSknpV (o : GroupV) (s : State) : Result := .next (s.skipIf (!s.pressed (s.readV o.x)))

/-- WKP Vx (R162): with no key pressed the state is unchanged, so the same instruction runs again in the next cycle. -/
def execWkpV (o : GroupV) (s : State) : Result :=
  match leastKey s.keys with
  | none => .next s
  | some k => .next (s.writeV o.x (BitVec.ofNat 8 k)).advance

/-- MOV Vx,DT (R163). -/
def execMovVDT (o : GroupV) (s : State) : Result := .next (s.writeV o.x s.dt).advance

/-- MOV DT,Vx (R164): the accumulator is not reset. -/
def execMovDTV (o : GroupV) (s : State) : Result := .next (State.advance { s with dt := s.readV o.x })

/-- MOV ST,Vx (R165): the accumulator is not reset. -/
def execMovSTV (o : GroupV) (s : State) : Result := .next (State.advance { s with st := s.readV o.x })

end Sys2Proof.Machine
end

