-- ==== Sys2Proof/Machine/Dispatch.lean ====
section
/-! DEFINITION. Dispatch by the operator (40_cycle.md R94): exactly one of the 35 execute routines. -/

namespace Sys2Proof.Machine

def exec (i : Instr) (s : State) : Host.Outcome State Fault Refusal :=
  match i with
  | .cls => Sys2Proof.Machine.execCls s
  | .ret => Sys2Proof.Machine.execRet s
  | .skpV o => Sys2Proof.Machine.execSkpV o s
  | .sknpV o => Sys2Proof.Machine.execSknpV o s
  | .movVDT o => Sys2Proof.Machine.execMovVDT o s
  | .wkpV o => Sys2Proof.Machine.execWkpV o s
  | .movDTV o => Sys2Proof.Machine.execMovDTV o s
  | .movSTV o => Sys2Proof.Machine.execMovSTV o s
  | .addIV o => Sys2Proof.Machine.execAddIV o s
  | .fontV o => Sys2Proof.Machine.execFontV o s
  | .bcdV o => Sys2Proof.Machine.execBcdV o s
  | .movMV o => Sys2Proof.Machine.execMovMV o s
  | .movVM o => Sys2Proof.Machine.execMovVM o s
  | .seqVV o => Sys2Proof.Machine.execSeqVV o s
  | .movVV o => Sys2Proof.Machine.execMovVV o s
  | .orVV o => Sys2Proof.Machine.execOrVV o s
  | .andVV o => Sys2Proof.Machine.execAndVV o s
  | .xorVV o => Sys2Proof.Machine.execXorVV o s
  | .addVV o => Sys2Proof.Machine.execAddVV o s
  | .subVV o => Sys2Proof.Machine.execSubVV o s
  | .shrVV o => Sys2Proof.Machine.execShrVV o s
  | .subnVV o => Sys2Proof.Machine.execSubnVV o s
  | .shlVV o => Sys2Proof.Machine.execShlVV o s
  | .sneVV o => Sys2Proof.Machine.execSneVV o s
  | .sysA o => Sys2Proof.Machine.execSysA o s
  | .jmpA o => Sys2Proof.Machine.execJmpA o s
  | .callA o => Sys2Proof.Machine.execCallA o s
  | .seqVB o => Sys2Proof.Machine.execSeqVB o s
  | .sneVB o => Sys2Proof.Machine.execSneVB o s
  | .movVB o => Sys2Proof.Machine.execMovVB o s
  | .addVB o => Sys2Proof.Machine.execAddVB o s
  | .movIA o => Sys2Proof.Machine.execMovIA o s
  | .jmpV0A o => Sys2Proof.Machine.execJmpV0A o s
  | .rndVB o => Sys2Proof.Machine.execRndVB o s
  | .drwVVN o => Sys2Proof.Machine.execDrwVVN o s

end Sys2Proof.Machine
end

