-- ==== Sys2Proof/Machine/Step.lean ====
section
/-! DEFINITION. One machine cycle (40_cycle.md R90), and placing the word the next cycle fetches. -/

namespace Sys2Proof.Machine

/-- One machine cycle (R90): nothing when faulted (R91); else fetch (R92), decode (R93), execute (R94, R95), and the timer
update after a routine that did not raise (R96). A latched fault is a next state. -/
def step (s : State) : Host.Outcome State Fault Refusal :=
  if s.fault.valid then .next s
  else
    match s.fetch with
    | none => raise .invalidAddress s
    | some w =>
      match decodeWord w with
      | none => raise .invalidInstruction s
      | some i => finishCycle (exec i s)

/-- The state with the instruction whose bits are `w` stored at `pc`, where `step` fetches its next instruction. Memory alone
changes; from a running state with `pc` at most 4094 the next step runs exactly that instruction. -/
def State.withFetchWord (s : State) (nbits w : Nat) : State := s.placeWord (BitVec.ofNat 16 (w % 2 ^ nbits))

end Sys2Proof.Machine
end

