-- ==== Sys2Proof/Machine/HostAccess.lean ====
section
/-! DEFINITION. What the host may do to the machine between cycles (10_state.md R27, 20_memory.md R53, 60_exceptions.md R176,
70_reset_and_hazards.md R200), and the key diff it is offered (10_state.md R19). Reading is by State's fields. -/

namespace Sys2Proof.Machine

/-- One action of the host. An element's width and range are those of the argument's type; the accumulators have no action (R24). -/
inductive HostAction where
  | reset
  | clearFault
  | writeFault (f : FaultLatch)
  | writePc (w : Word)
  | writeV (x : Nibble) (b : Byte)
  | writeI (w : Word)
  | writeDT (b : Byte)
  | writeST (b : Byte)
  | writeMem (a : Nat) (b : Byte)
  | loadImage (a : Nat) (image : List Byte)
  | loadProgram (image : List Byte)
  | writeStack (k : Fin 16) (w : Word)
  | writeSp (n : Fin 17)
  | writeKeys (w : Word)
  | writePixel (x : Fin 64) (y : Fin 32) (b : Bool)
  | writeRate (r : BitVec 32)
  deriving DecidableEq, Repr

/-- The byte-image loader (20_memory.md R53): an image that would overrun memory is not loaded at all. -/
def State.loadImage (s : State) (a : Nat) (image : List Byte) : Option State :=
  if InBounds a image.length then
    match s.mem.writeBytes a image with
    | some m => some { s with mem := m }
    | none => none
  else none

/-- `PROGRAM_BASE` (00_scope.md R2). -/
def programBase : Nat := 0x200

/-- The state after a host action; `none` is a reported failure that changed nothing. A reset goes on with fresh draws, which are
an input and no state of the machine (log 4). -/
def HostAction.apply (a : HostAction) (s : State) : Option State :=
  match a with
  | .reset => some { State.reset with draws := s.draws }
  | .clearFault => some s.clearFault
  | .writeFault f => some { s with fault := f }
  | .writePc w => some (s.jump w)
  | .writeV x b => some (s.writeV x b)
  | .writeI w => some (s.writeI w)
  | .writeDT b => some { s with dt := b }
  | .writeST b => some { s with st := b }
  | .writeMem a b => s.loadImage a [b]
  | .loadImage a image => s.loadImage a image
  | .loadProgram image => s.loadImage programBase image
  | .writeStack k w => some { s with stack := s.stack.set k.val w k.isLt }
  | .writeSp n => some { s with sp := n }
  | .writeKeys w => some { s with keys := w }
  | .writePixel x y b => some { s with disp := s.disp.setPixel x.val y.val b }
  | .writeRate r => some { s with masterClockRate := r }

/-- The keys pressed between two snapshots (10_state.md R19). -/
def pressedSince (before after : Word) : Word := after &&& ~~~before

/-- The keys released between two snapshots (10_state.md R19). -/
def releasedSince (before after : Word) : Word := before &&& ~~~after

end Sys2Proof.Machine
end

