-- ==== Sys2Proof/Safety.lean ====
section
/-! DEFINITION. The terms claims use: running, stopped and idle; what may change and what must not; the table of fault causes; the
invariants; the interleaving of machine cycles and host actions. Nothing here is part of the machine. -/

namespace Sys2Proof.Machine

/-! ## Running, stopped, idle (70_reset_and_hazards.md R202) -/

/-- The machine is running (40_cycle.md R90). -/
abbrev State.Running (s : State) : Prop := s.fault.valid = false

/-- A run has stopped (R202). -/
abbrev State.Stopped (s : State) : Prop := s.fault.valid = true

/-- The instruction at `pc` is `JMP pc` (R202). -/
abbrev State.Idle (s : State) : Prop := s.pc.toNat < 4095 ∧ s.fetch = some (0x1000 ||| s.pc)

/-! ## What an instruction leaves unchanged -/

/-- The state elements of 10_state.md R30, and the model's own draw counter. -/
inductive Elem where
  | v
  | i
  | dt
  | st
  | pc
  | mem
  | stack
  | sp
  | keys
  | disp
  | fault
  | masterClockRate
  | dtAcc
  | stAcc
  | draws
  deriving DecidableEq, Repr

/-- The element has in `t` the value it has in `s`: registers, memory and display through their reads. -/
def SameElem (s t : State) : Elem → Prop
  | .v => ∀ k, t.readV k = s.readV k
  | .i => t.i = s.i
  | .dt => t.dt = s.dt
  | .st => t.st = s.st
  | .pc => t.pc = s.pc
  | .mem => ∀ a, t.mem.read a = s.mem.read a
  | .stack => t.stack = s.stack
  | .sp => t.sp = s.sp
  | .keys => t.keys = s.keys
  | .disp => ∀ x y, t.disp.pixel x y = s.disp.pixel x y
  | .fault => t.fault = s.fault
  | .masterClockRate => t.masterClockRate = s.masterClockRate
  | .dtAcc => t.dtAcc = s.dtAcc
  | .stAcc => t.stAcc = s.stAcc
  | .draws => t.draws = s.draws

/-- Every element that is not listed is unchanged. -/
def OnlyChanges (es : List Elem) (s t : State) : Prop := ∀ e, e ∉ es → SameElem s t e

/-- Every byte of memory outside the `n` bytes at `a` reads as before. -/
def SameMemOutside (a n : Nat) (s t : State) : Prop := ∀ b, b < a ∨ a + n ≤ b → t.mem.read b = s.mem.read b

/-- Register `x` becomes `b` and the machine goes on to the next instruction; nothing else changes. -/
structure WritesReg (s t : State) (x : Nibble) (b : Byte) : Prop where
  result : t.readV x = b
  others : ∀ k, k ≠ x → t.readV k = s.readV k
  pc : t.pc = s.pc + 2
  frame : OnlyChanges [.v, .pc] s t

/-- The effect of a flag-setting ALU opcode (42_alu.md R120): result `r` in register `x`, flag `f` in VF unless `x` is VF. -/
structure WritesFlagAndReg (s t : State) (x : Nibble) (f : Bool) (r : Byte) : Prop where
  result : t.readV x = r
  flag : x ≠ vf → t.readV vf = if f then 1 else 0
  others : ∀ k, k ≠ x → k ≠ vf → t.readV k = s.readV k
  pc : t.pc = s.pc + 2
  frame : OnlyChanges [.v, .pc] s t

/-- Only `pc` changes, to the given value. -/
structure SetsPc (s t : State) (target : Word) : Prop where
  pc : t.pc = target
  frame : OnlyChanges [.pc] s t

/-- The elements an execute routine may write: the column "written by core" of 10_state.md R30, read by instruction. `fault` stands
for the routines that can raise (60_exceptions.md R171). -/
def instrWrites : Instr → List Elem
  | .cls => [.pc, .disp]
  | .ret => [.pc, .sp, .fault]
  | .skpV _ => [.pc]
  | .sknpV _ => [.pc]
  | .movVDT _ => [.pc, .v]
  | .wkpV _ => [.pc, .v]
  | .movDTV _ => [.pc, .dt]
  | .movSTV _ => [.pc, .st]
  | .addIV _ => [.pc, .i]
  | .fontV _ => [.pc, .i, .fault]
  | .bcdV _ => [.pc, .mem, .fault]
  | .movMV _ => [.pc, .mem, .fault]
  | .movVM _ => [.pc, .v, .fault]
  | .seqVV _ => [.pc]
  | .movVV _ => [.pc, .v]
  | .orVV _ => [.pc, .v]
  | .andVV _ => [.pc, .v]
  | .xorVV _ => [.pc, .v]
  | .addVV _ => [.pc, .v]
  | .subVV _ => [.pc, .v]
  | .shrVV _ => [.pc, .v]
  | .subnVV _ => [.pc, .v]
  | .shlVV _ => [.pc, .v]
  | .sneVV _ => [.pc]
  | .sysA _ => [.fault]
  | .jmpA _ => [.pc]
  | .callA _ => [.pc, .stack, .sp, .fault]
  | .seqVB _ => [.pc]
  | .sneVB _ => [.pc]
  | .movVB _ => [.pc, .v]
  | .addVB _ => [.pc, .v]
  | .movIA _ => [.pc, .i]
  | .jmpV0A _ => [.pc]
  | .rndVB _ => [.pc, .v, .draws]
  | .drwVVN _ => [.pc, .v, .disp, .fault]

/-- The flag-setting opcodes (10_state.md R11). -/
def flagSetting : Instr → Bool
  | .addVV _ | .subVV _ | .subnVV _ | .shrVV _ | .shlVV _ | .drwVVN _ => true
  | .cls | .ret | .skpV _ | .sknpV _ | .movVDT _ | .wkpV _ | .movDTV _ | .movSTV _ | .addIV _ | .fontV _ | .bcdV _ | .movMV _
  | .movVM _ | .seqVV _ | .movVV _ | .orVV _ | .andVV _ | .xorVV _ | .sneVV _ | .sysA _ | .jmpA _ | .callA _ | .seqVB _
  | .sneVB _ | .movVB _ | .addVB _ | .movIA _ | .jmpV0A _ | .rndVB _ => false

/-- Register `k` is a destination operand of the instruction (42_alu.md, 43_index_memory.md, 45_keypad_timers.md). -/
def isDestination (k : Nibble) : Instr → Bool
  | .movVDT o | .wkpV o => k == o.x
  | .movVM o => decide (k.toNat ≤ o.x.toNat)
  | .movVV o | .orVV o | .andVV o | .xorVV o | .addVV o | .subVV o | .shrVV o | .subnVV o | .shlVV o => k == o.x
  | .movVB o | .addVB o | .rndVB o => k == o.x
  | .cls | .ret | .skpV _ | .sknpV _ | .movDTV _ | .movSTV _ | .addIV _ | .fontV _ | .bcdV _ | .movMV _ | .seqVV _ | .sneVV _
  | .sysA _ | .jmpA _ | .callA _ | .seqVB _ | .sneVB _ | .movIA _ | .jmpV0A _ | .drwVVN _ => false

/-! ## The causes of faults (60_exceptions.md R171) -/

/-- The execute rows of the table of R171. -/
def instrFaultCause (s : State) : Instr → Option FaultType
  | .sysA _ => some .invalidInstruction
  | .ret => if s.sp.val = 0 then some .emptyStack else none
  | .callA _ => if s.sp.val = 16 then some .fullStack else none
  | .fontV o => if (s.readV o.x).toNat ≥ 16 then some .invalidDigit else none
  | .bcdV _ => if s.i.toNat + 3 > 4096 then some .invalidAddress else none
  | .movMV o => if s.i.toNat + o.x.toNat + 1 > 4096 then some .invalidAddress else none
  | .movVM o => if s.i.toNat + o.x.toNat + 1 > 4096 then some .invalidAddress else none
  | .drwVVN o => if s.i.toNat + o.n.toNat > 4096 then some .invalidAddress else none
  | .cls | .skpV _ | .sknpV _ | .movVDT _ | .wkpV _ | .movDTV _ | .movSTV _ | .addIV _ | .seqVV _ | .movVV _ | .orVV _ | .andVV _
  | .xorVV _ | .addVV _ | .subVV _ | .shrVV _ | .subnVV _ | .shlVV _ | .sneVV _ | .jmpA _ | .seqVB _ | .sneVB _ | .movVB _
  | .addVB _ | .movIA _ | .jmpV0A _ | .rndVB _ => none

/-- The table of R171 in the order of R178: fetch, decode, execute. -/
def State.faultCause (s : State) : Option FaultType :=
  if s.pc.toNat + 2 > 4096 then some .invalidAddress
  else
    match decodeWord (joinBytes (s.mem.lookup s.pc.toNat) (s.mem.lookup (s.pc.toNat + 1))) with
    | none => some .invalidInstruction
    | some i => instrFaultCause s i

/-! ## The sprite, as a picture (44_display.md R151) -/

/-- The sprite of `n` rows at `I` with its origin at `(x0, y0)` has a 1 bit at pixel `(px, py)`. -/
def spriteBit (s : State) (x0 y0 n px py : Nat) : Bool :=
  decide (x0 ≤ px ∧ px < x0 + 8 ∧ y0 ≤ py ∧ py < y0 + n) &&
    (s.mem.lookup (s.i.toNat + (py - y0))).getLsbD (7 - (px - x0))

/-! ## Invariants -/

/-- What every machine cycle and every host action keeps: memory in its canonical form, and the two accumulators equal
(60_exceptions.md R182). -/
structure State.Inv (s : State) : Prop where
  mem : s.mem.wf
  accs : s.dtAcc = s.stAcc

/-- What every machine cycle keeps while the host leaves `master_clock_rate` alone: an accumulator has not passed the test of
60_exceptions.md R181. -/
structure State.AccBounded (s : State) : Prop where
  dt : 61 * s.dtAcc ≤ s.masterClockRate.toNat
  st : 61 * s.stAcc ≤ s.masterClockRate.toNat

/-! ## The whole system (20_memory.md R48) -/

/-- The states of a run from reset: an interleaving of whole machine cycles and whole host actions (20_memory.md R48). -/
inductive Reachable : State → Prop
  | reset : Reachable State.reset
  | cycle (s t : State) (hs : Reachable s) (h : step s = .next t) : Reachable t
  | host (a : HostAction) (s t : State) (hs : Reachable s) (h : a.apply s = some t) : Reachable t

end Sys2Proof.Machine
end

