-- ==== Sys2Proof/Certificates/Slice0/Obligations.lean ====
section
/-! DEFINITION. The statements for the provers, one `def Obligations.<Name> : Prop` each, taken from the numbered rules of spec/. The
words they use are those of Safety.lean. -/

open Sys2Proof Sys2Proof.Machine

/-! ## Encoding and decoding (30_encoding.md) -/

/-- R71: `decode(encode(i)) == i` for every constructible instruction. That the two SYS words of CLS and RET are excluded is the
spec's own decision D1. -/
def Obligations.DecodeOfEncodeIsIdentity : Prop :=
  ∀ i : Instr, i.wellFormed = true → decodeWord (encode i) = some i

/-- R71, the other direction: what a word decodes to is constructible and encodes to that word again. -/
def Obligations.EncodeOfDecodeIsIdentity : Prop :=
  ∀ (w : Word) (i : Instr), decodeWord w = some i → encode i = w ∧ i.wellFormed = true

/-- R72: exactly the words of its table have no instruction. `h` is the high nibble, `l` the low nibble, `kk` the low byte. -/
def Obligations.WordsWithoutInstruction : Prop :=
  ∀ w : Word,
    let h := w.toNat / 4096
    let l := w.toNat % 16
    let kk := w.toNat % 256
    decodeWord w = none ↔
      (h = 5 ∧ l ≠ 0) ∨ (h = 8 ∧ 8 ≤ l ∧ l ≠ 14) ∨ (h = 9 ∧ l ≠ 0) ∨ (h = 14 ∧ kk ≠ 0x9E ∧ kk ≠ 0xA1) ∨
      (h = 15 ∧ kk ≠ 0x07 ∧ kk ≠ 0x0A ∧ kk ≠ 0x15 ∧ kk ≠ 0x18 ∧ kk ≠ 0x1E ∧ kk ≠ 0x29 ∧ kk ≠ 0x33 ∧ kk ≠ 0x55 ∧ kk ≠ 0x65)

/-- Words written out from the encodings of R66 to R69, one or more for each level and group (95_test_vectors.md 2.1). -/
def Obligations.WrittenOutWordsDecode : Prop :=
  decodeWord 0x00E0 = some .cls ∧ decodeWord 0x00EE = some .ret ∧ decodeWord 0x00E1 = some (.sysA ⟨0x0E1⟩) ∧
  decodeWord 0x1234 = some (.jmpA ⟨0x234⟩) ∧ decodeWord 0x3A42 = some (.seqVB ⟨0xA, 0x42⟩) ∧
  decodeWord 0x8AB1 = some (.orVV ⟨0xA, 0xB⟩) ∧ decodeWord 0x8AB8 = none ∧ decodeWord 0x5121 = none ∧
  decodeWord 0xD125 = some (.drwVVN ⟨1, 2, 5⟩) ∧ decodeWord 0xE1A1 = some (.sknpV ⟨1⟩) ∧
  decodeWord 0xF165 = some (.movVM ⟨1⟩) ∧ decodeWord 0xFFFF = none

/-- R62: what a codec's two functions compute, and its law, for the five codecs of R61 over every 16-bit container. -/
def Obligations.CodecContract : Prop :=
  ∀ c ∈ [addressCodec, byteCodec, vxCodec, vyCodec, nibbleCodec], ∀ w : Word,
    (c.extract w).toNat = w.toNat / 2 ^ c.offset % 2 ^ c.width ∧
    (c.place w).toNat = w.toNat % 2 ^ c.width * 2 ^ c.offset ∧
    c.extract (c.place w) = w &&& c.mask ∧ c.mask.toNat = 2 ^ c.width - 1

/-! ## The machine cycle (40_cycle.md, 60_exceptions.md) -/

/-- R90: a running machine whose bytes at `pc` decode to `i` executes `i`, and what the cycle does besides is `finishCycle`: when
the routine completes, the timers tick, and when it raised, the state it left stands. -/
def Obligations.StepRunsDecodedInstruction : Prop :=
  ∀ (s : State) (hi lo : Byte) (i : Instr), s.Running → s.mem.read s.pc.toNat = some hi →
    s.mem.read (s.pc.toNat + 1) = some lo → decodeWord (hi ++ lo) = some i →
      step s = finishCycle (exec i s) ∧
      ∀ t, exec i s = .next t → step s = .next (if t.fault.valid then t else t.timerTick)

/-- The model's own interface: a decodable word placed by `withFetchWord` in a running machine is the one the next step runs. -/
def Obligations.PlacedWordIsTheOneExecuted : Prop :=
  ∀ (s : State) (w : Word) (i : Instr), s.Running → s.pc.toNat ≤ 4094 → decodeWord w = some i →
    decodeTableWord 16 w.toNat = some i ∧
    step (s.withFetchWord 16 w.toNat) = finishCycle (exec i (s.withFetchWord 16 w.toNat))

/-- R91: a cycle of a faulted machine changes nothing and returns failure. -/
def Obligations.FaultedMachineIsFrozen : Prop :=
  ∀ s : State, s.Stopped → step s = .next s ∧ cycleOk s s = false

/-- R92: a running machine with `pc0 + 2 > 4096` latches `InvalidAddress` at `pc0`, changes nothing else and returns failure; with
`pc0 + 2 <= 4096` the fetched word is big-endian and fetch has no fault. -/
def Obligations.FetchBigEndianOrFault : Prop :=
  ∀ s : State, s.Running →
    (s.pc.toNat ≥ 4095 →
      ∃ t, step s = .next t ∧ t = { s with fault := ⟨true, FaultType.code .invalidAddress, s.pc⟩ } ∧ cycleOk s t = false) ∧
    (s.pc.toNat < 4095 → ∃ hi lo, s.mem.read s.pc.toNat = some hi ∧ s.mem.read (s.pc.toNat + 1) = some lo ∧
      ∃ w, s.fetch = some w ∧ w.toNat = hi.toNat * 256 + lo.toNat)

/-- R93: a fetched word that does not decode latches `InvalidInstruction` at `pc0`; nothing else changes and the cycle fails. -/
def Obligations.UndecodableWordFaults : Prop :=
  ∀ (s : State) (hi lo : Byte), s.Running → s.mem.read s.pc.toNat = some hi → s.mem.read (s.pc.toNat + 1) = some lo →
    decodeWord (hi ++ lo) = none →
      ∃ t, step s = .next t ∧ t = { s with fault := ⟨true, FaultType.code .invalidInstruction, s.pc⟩ } ∧ cycleOk s t = false

/-- R95, R174: a cycle that latches a fault leaves no trace but the latch, whose type is one of R170's (never `InvalidPixel`, R171)
and whose address is `pc0`, and returns failure. -/
def Obligations.FailingCycleLeavesNoTrace : Prop :=
  ∀ s t : State, s.Running → step s = .next t → t.Stopped →
    (∃ f : FaultType, f ≠ .invalidPixel ∧ t = { s with fault := ⟨true, f.code, s.pc⟩ }) ∧ cycleOk s t = false

/-- R171, R172, R178: a running machine's cycle latches a fault exactly when the table of R171 gives a cause, of the type it gives and
at `pc0`, and returns success (R97) exactly when there is none. The rows of SYS (D1) and of DRW with n = 0 (D12) are the spec's
own decisions. -/
def Obligations.FaultsAreExactlyTheListedCauses : Prop :=
  ∀ s : State, s.Running → ∃ t, step s = .next t ∧
    (∀ f, s.faultCause = some f → t = { s with fault := ⟨true, f.code, s.pc⟩ }) ∧
    (s.faultCause = none → t.Running) ∧ (cycleOk s t = true ↔ s.faultCause = none)

/-- R207: a machine cycle always returns. In this model: every step ends in a next state, never in the model's own fault or
refusal. -/
def Obligations.EveryCycleReturns : Prop := ∀ s : State, ∃ t, step s = .next t

/-- R97: the return value, from the states before and after a cycle: 1 unless the machine was faulted before it or is after it, which
is iff one instruction was executed to completion in it. -/
def Obligations.OkMeansOneInstructionCompleted : Prop :=
  ∀ s t : State, step s = .next t →
    (cycleOk s t = true ↔ s.Running ∧ t.Running) ∧
    (cycleOk s t = true ↔
      s.Running ∧ ∃ i u, s.fetch.bind decodeWord = some i ∧ exec i s = .next u ∧ u.Running ∧ t = u.timerTick)

/-- R181, R96, R204: after a successful cycle each accumulator and timer is as the tick leaves it, taken from the timer that
MOV DT,Vx or MOV ST,Vx wrote in this cycle or from the one before it. The floor division is the spec's own decision D7, the two
accumulators its decision D8. -/
def Obligations.SuccessfulCycleTicksTimers : Prop :=
  ∀ s t : State, s.Running → step s = .next t → t.Running →
    let rate := s.masterClockRate.toNat
    let dt0 := match s.fetch.bind decodeWord with
      | some (.movDTV o) => s.readV o.x
      | _ => s.dt
    let st0 := match s.fetch.bind decodeWord with
      | some (.movSTV o) => s.readV o.x
      | _ => s.st
    t.dtAcc = (if rate / (s.dtAcc + 1) ≤ 60 then 0 else s.dtAcc + 1) ∧
    t.dt.toNat = (if rate / (s.dtAcc + 1) ≤ 60 then dt0.toNat - 1 else dt0.toNat) ∧
    t.stAcc = (if rate / (s.stAcc + 1) ≤ 60 then 0 else s.stAcc + 1) ∧
    t.st.toNat = (if rate / (s.stAcc + 1) ≤ 60 then st0.toNat - 1 else st0.toNat)

/-- R182 (the spec marks it derived): from accumulators at zero, n ticks at a constant rate take `n / P` from each timer, floor at
zero, where `P = master_clock_rate / 61 + 1`, and leave the accumulators at `n % P`. -/
def Obligations.TimerPeriod : Prop :=
  ∀ (s : State) (n : Nat), s.dtAcc = 0 → s.stAcc = 0 →
    let p := s.masterClockRate.toNat / 61 + 1
    let t := State.timerTick^[n] s
    t.dt.toNat = s.dt.toNat - n / p ∧ t.st.toNat = s.st.toNat - n / p ∧ t.dtAcc = n % p ∧ t.stAcc = n % p

/-- R182's data points (the document's test): rate 60 takes a timer from 0xFF to 0 in exactly 255 ticks, rate 240 in exactly
1020. -/
def Obligations.TimerCountsOfTheDocument : Prop :=
  ∀ s : State, s.dtAcc = 0 → s.dt = 0xFF →
    (s.masterClockRate = 60 → (State.timerTick^[255] s).dt = 0 ∧ (State.timerTick^[254] s).dt = 1) ∧
    (s.masterClockRate = 240 → (State.timerTick^[1020] s).dt = 0 ∧ (State.timerTick^[1019] s).dt = 1)

/-! ## Reset and invariants (10_state.md, 70_reset_and_hazards.md) -/

/-- R30, R200: the state after reset, element by element. Every value is the spec's own decision (D4, D5, D6); the font bytes and
`master_clock_rate` are its open parameters. -/
def Obligations.ResetValues : Prop :=
  let s := State.reset
  (∀ k, s.readV k = 0) ∧ s.i = 0 ∧ s.dt = 0 ∧ s.st = 0 ∧ s.pc = 0x0200 ∧
  (∀ a, a < 4096 → ¬(0x100 ≤ a ∧ a < 0x150) → s.mem.read a = some 0) ∧
  (∀ k (h : k < 80), s.mem.read (0x100 + k) = some Config.fontRom[k]) ∧
  (∀ k (h : k < 16), s.stack[k] = 0) ∧ s.sp.val = 0 ∧ s.keys = 0 ∧
  (∀ x y, x < 64 → y < 32 → s.disp.pixel x y = some false) ∧
  s.Running ∧ s.fault.type = 0 ∧ s.fault.addr = 0 ∧
  s.masterClockRate = Config.masterClockRateReset ∧ s.dtAcc = 0 ∧ s.stAcc = 0

/-- The invariants hold at reset. The equality of the accumulators is R182's; the canonical form of memory is the model's own
(log 5). -/
def Obligations.ResetHoldsInvariants : Prop := State.reset.Inv ∧ State.reset.AccBounded

/-- Every machine cycle keeps memory in its canonical form (the model's own, log 5) and the two accumulators equal (R182). -/
def Obligations.StepKeepsInvariants : Prop := ∀ s t : State, s.Inv → step s = .next t → t.Inv

/-- Every machine cycle leaves an accumulator below the test of R181; after a successful one it is so whatever it was before. -/
def Obligations.StepKeepsAccumulatorBound : Prop :=
  ∀ s t : State, step s = .next t → (s.AccBounded → t.AccBounded) ∧ (cycleOk s t = true → t.AccBounded)

/-- R48, R27: every state of an interleaving of machine cycles and host actions from reset has the invariants. -/
def Obligations.ReachableStatesHoldInvariants : Prop := ∀ s : State, Reachable s → s.Inv

/-! ## What instructions leave unchanged -/

/-- R30's column "written by core": an execute routine changes only the elements the table lets it write. -/
def Obligations.ExecChangesOnlyListedElements : Prop :=
  ∀ (i : Instr) (s t : State), exec i s = .next t → OnlyChanges (instrWrites i) s t

/-- R11, R133: a register changes only as a destination operand, and VF also as the flag of a flag-setting opcode. That the logic
opcodes, ADD Vx,byte and ADD I,Vx leave VF alone is the spec's own decision D16. -/
def Obligations.OnlyDestinationsAndFlagsChange : Prop :=
  ∀ (i : Instr) (s t : State) (k : Nibble), exec i s = .next t → isDestination k i = false →
    ¬(k = 15 ∧ flagSetting i = true) → t.readV k = s.readV k

/-- R44: an instruction whose range at `I` leaves memory raises `InvalidAddress` and has read and written nothing. With n = 0 DRW's
test is `I > 4096`, the spec's own decision D12. -/
def Obligations.OutOfBoundsTransferFaults : Prop :=
  ∀ (s : State) (x y n : Nibble),
    let out : State := { s with fault := ⟨true, FaultType.code .invalidAddress, s.pc⟩ }
    (s.i.toNat + 3 > 4096 → exec (.bcdV ⟨x⟩) s = .next out) ∧
    (s.i.toNat + (x.toNat + 1) > 4096 → exec (.movMV ⟨x⟩) s = .next out ∧ exec (.movVM ⟨x⟩) s = .next out) ∧
    (s.i.toNat + n.toNat > 4096 → exec (.drwVVN ⟨x, y, n⟩) s = .next out)

/-- R151, R178: a sprite height above 15, which no decoded DRW has, is `InvalidInstruction`, also when the range leaves memory. -/
def Obligations.WideSpriteHeightFaults : Prop :=
  ∀ (x y : Nibble) (n : Nat) (s : State), n > 15 →
    drawAt x y n s = .next { s with fault := ⟨true, FaultType.code .invalidInstruction, s.pc⟩ }

/-! ## Control transfer (41_control.md) -/

/-- R100: SYS always raises `InvalidInstruction`, whatever its address. That SYS is the 35th opcode is the spec's own decision D1. -/
def Obligations.SysAlwaysFaults : Prop :=
  ∀ (o : GroupA) (s : State), exec (.sysA o) s = .next { s with fault := ⟨true, FaultType.code .invalidInstruction, s.pc⟩ }

/-- R101: RET, 0x00EE, pops the stack into `pc`, or raises `EmptyStack`; the popped slot keeps its contents. -/
def Obligations.RetPopsOrFaults : Prop :=
  encode .ret = 0x00EE ∧ ∀ s : State,
    (0 < s.sp.val → ∃ t, exec .ret s = .next t ∧ s.stack[s.sp.val - 1]? = some t.pc ∧ t.sp.val = s.sp.val - 1 ∧
      OnlyChanges [.pc, .sp] s t) ∧
    (s.sp.val = 0 → exec .ret s = .next { s with fault := ⟨true, FaultType.code .emptyStack, s.pc⟩ })

/-- R102: JMP, 0x1nnn, sets `pc` to its address, and only that. -/
def Obligations.JmpSetsPc : Prop :=
  ∀ (o : GroupA) (s : State), (encode (.jmpA o)).toNat = 0x1000 + o.nnn.toNat ∧
    ∃ t, exec (.jmpA o) s = .next t ∧ t.pc.toNat = o.nnn.toNat ∧ OnlyChanges [.pc] s t

/-- R103: CALL, 0x2nnn, pushes `pc0 + 2` and jumps, or raises `FullStack` when 16 entries are in use. -/
def Obligations.CallPushesOrFaults : Prop :=
  ∀ (o : GroupA) (s : State), (encode (.callA o)).toNat = 0x2000 + o.nnn.toNat ∧
    (s.sp.val < 16 → ∃ t, exec (.callA o) s = .next t ∧ t.pc.toNat = o.nnn.toNat ∧ t.sp.val = s.sp.val + 1 ∧
      (t.stack[s.sp.val]?).map BitVec.toNat = some ((s.pc.toNat + 2) % 65536) ∧
      (∀ k, k ≠ s.sp.val → t.stack[k]? = s.stack[k]?) ∧ OnlyChanges [.pc, .sp, .stack] s t) ∧
    (s.sp.val = 16 → exec (.callA o) s = .next { s with fault := ⟨true, FaultType.code .fullStack, s.pc⟩ })

/-- R109: the call convention is the hardware's: after CALL, RET comes back to the instruction after the CALL with the stack as it
was. -/
def Obligations.RetUndoesCall : Prop :=
  ∀ (o : GroupA) (s : State), s.sp.val < 16 → ∃ t u, exec (.callA o) s = .next t ∧ exec .ret t = .next u ∧
    u.pc = s.pc + 2 ∧ u.sp = s.sp ∧ (∀ k, k < s.sp.val → u.stack[k]? = s.stack[k]?) ∧ OnlyChanges [.pc, .stack] s u

/-- R104, R105: SEQ and SNE with a byte, 0x3xkk and 0x4xkk, skip two bytes more when the condition holds, and write nothing but
`pc`. -/
def Obligations.SkipsOnByte : Prop :=
  ∀ (o : GroupVB) (s : State),
    (encode (.seqVB o)).toNat = 0x3000 + 0x100 * o.x.toNat + o.kk.toNat ∧
    (encode (.sneVB o)).toNat = 0x4000 + 0x100 * o.x.toNat + o.kk.toNat ∧
    (∃ t, exec (.seqVB o) s = .next t ∧ SetsPc s t (if (s.readV o.x).toNat = o.kk.toNat then s.pc + 4 else s.pc + 2)) ∧
    ∃ t, exec (.sneVB o) s = .next t ∧ SetsPc s t (if (s.readV o.x).toNat ≠ o.kk.toNat then s.pc + 4 else s.pc + 2)

/-- R106, R107: SEQ and SNE with a register likewise. -/
def Obligations.SkipsOnRegister : Prop :=
  ∀ (o : GroupVV) (s : State),
    (∃ t, exec (.seqVV o) s = .next t ∧
      SetsPc s t (if (s.readV o.x).toNat = (s.readV o.y).toNat then s.pc + 4 else s.pc + 2)) ∧
    ∃ t, exec (.sneVV o) s = .next t ∧
      SetsPc s t (if (s.readV o.x).toNat ≠ (s.readV o.y).toNat then s.pc + 4 else s.pc + 2)

/-- R108: JMP V0 sets `pc` to the address plus V0, not masked to 12 bits (the spec's own decision D18) and never wrapping. -/
def Obligations.JmpV0AddsV0 : Prop :=
  ∀ (o : GroupA) (s : State), ∃ t, exec (.jmpV0A o) s = .next t ∧ t.pc.toNat = o.nnn.toNat + (s.readV 0).toNat ∧
    OnlyChanges [.pc] s t

/-! ## Moves and the ALU (42_alu.md) -/

/-- R121, R122, R123: the two MOVs, and ADD Vx,byte modulo 256 with no flag (the spec's own decision D16). -/
def Obligations.MovesAndAddImmediate : Prop :=
  ∀ (o : GroupVB) (p : GroupVV) (s : State),
    (∃ t, exec (.movVB o) s = .next t ∧ WritesReg s t o.x o.kk) ∧
    (∃ t, exec (.addVB o) s = .next t ∧ WritesReg s t o.x (BitVec.ofNat 8 (((s.readV o.x).toNat + o.kk.toNat) % 256))) ∧
    ∃ t, exec (.movVV p) s = .next t ∧ WritesReg s t p.x (s.readV p.y)

/-- R124, R125, R126: OR, AND and XOR bit by bit, with no flag (the spec's own decision D16). -/
def Obligations.LogicIsBitwise : Prop :=
  ∀ (o : GroupVV) (s : State),
    (∃ t b, exec (.orVV o) s = .next t ∧ WritesReg s t o.x b ∧
      ∀ k, k < 8 → b.getLsbD k = ((s.readV o.x).getLsbD k || (s.readV o.y).getLsbD k)) ∧
    (∃ t b, exec (.andVV o) s = .next t ∧ WritesReg s t o.x b ∧
      ∀ k, k < 8 → b.getLsbD k = ((s.readV o.x).getLsbD k && (s.readV o.y).getLsbD k)) ∧
    ∃ t b, exec (.xorVV o) s = .next t ∧ WritesReg s t o.x b ∧
      ∀ k, k < 8 → b.getLsbD k = ((s.readV o.x).getLsbD k != (s.readV o.y).getLsbD k)

/-- R127: ADD Vx,Vy, 0x8xy4: the sum modulo 256 and the carry, from the registers before; the sum wins when Vx is VF. -/
def Obligations.AddSetsCarry : Prop :=
  ∀ (o : GroupVV) (s : State), (encode (.addVV o)).toNat = 0x8004 + 0x100 * o.x.toNat + 0x10 * o.y.toNat ∧
    let sum := (s.readV o.x).toNat + (s.readV o.y).toNat
    ∃ t, exec (.addVV o) s = .next t ∧ WritesFlagAndReg s t o.x (decide (sum > 255)) (BitVec.ofNat 8 (sum % 256))

/-- R128: SUB Vx,Vy, 0x8xy5: the difference modulo 256 and the borrow-complement, from the registers before; the difference wins
when Vx is VF. -/
def Obligations.SubSetsBorrowComplement : Prop :=
  ∀ (o : GroupVV) (s : State), (encode (.subVV o)).toNat = 0x8005 + 0x100 * o.x.toNat + 0x10 * o.y.toNat ∧
    let a := (s.readV o.x).toNat
    let b := (s.readV o.y).toNat
    ∃ t, exec (.subVV o) s = .next t ∧
      WritesFlagAndReg s t o.x (decide (a ≥ b)) (BitVec.ofNat 8 ((a + 256 - b) % 256))

/-- R130, R120: SUBN Vx,Vy is Vy minus Vx into Vx (that direction the spec marks as general knowledge). -/
def Obligations.SubnIsReversedSub : Prop :=
  ∀ (o : GroupVV) (s : State),
    let a := (s.readV o.x).toNat
    let b := (s.readV o.y).toNat
    ∃ t, exec (.subnVV o) s = .next t ∧
      WritesFlagAndReg s t o.x (decide (b ≥ a)) (BitVec.ofNat 8 ((b + 256 - a) % 256))

/-- R129, R131, R120: SHR and SHL by one place, of Vx or of Vy as the open parameter SHIFT_SRC says (D10; log 3): the statement
holds for both values of it. -/
def Obligations.ShiftsByOne : Prop :=
  ∀ (o : GroupVV) (s : State),
    let a := (match Config.shiftSrc with
      | .vx => s.readV o.x
      | .vy => s.readV o.y).toNat
    (∃ t, exec (.shrVV o) s = .next t ∧ WritesFlagAndReg s t o.x (decide (a % 2 = 1)) (BitVec.ofNat 8 (a / 2))) ∧
    ∃ t, exec (.shlVV o) s = .next t ∧ WritesFlagAndReg s t o.x (decide (a ≥ 128)) (BitVec.ofNat 8 (a * 2 % 256))

/-- R132: RND writes the draw of `rnd_in` AND `kk`. The draw is the free value of log 4 (D13): nothing is said of it. -/
def Obligations.RndMasksTheDraw : Prop :=
  ∀ (o : GroupVB) (s : State), ∃ t, exec (.rndVB o) s = .next t ∧ t.readV o.x = Config.rndIn s.draws &&& o.kk ∧
    (∀ k, k < 8 → o.kk.getLsbD k = false → (t.readV o.x).getLsbD k = false) ∧
    (∀ k, k ≠ o.x → t.readV k = s.readV k) ∧ t.pc = s.pc + 2 ∧ t.draws = s.draws + 1 ∧ OnlyChanges [.v, .pc, .draws] s t

/-! ## Index register and memory (43_index_memory.md) -/

/-- R140, R141: MOV I,addr loads the address; ADD I,Vx adds modulo 65536 and leaves VF alone (the spec's own decision D16). -/
def Obligations.IndexLoadAndAdd : Prop :=
  ∀ (o : GroupA) (p : GroupV) (s : State),
    (∃ t, exec (.movIA o) s = .next t ∧ t.i.toNat = o.nnn.toNat ∧ t.pc = s.pc + 2 ∧ OnlyChanges [.i, .pc] s t) ∧
    ∃ t, exec (.addIV p) s = .next t ∧ t.i.toNat = (s.i.toNat + (s.readV p.x).toNat) % 65536 ∧ t.pc = s.pc + 2 ∧
      OnlyChanges [.i, .pc] s t

/-- R142: FONT gives the address of the digit's glyph (that it is the absolute address is the spec's own decision D14), or raises
`InvalidDigit`. -/
def Obligations.FontGivesGlyphAddress : Prop :=
  ∀ (o : GroupV) (s : State),
    ((s.readV o.x).toNat < 16 → ∃ t, exec (.fontV o) s = .next t ∧ t.i.toNat = 0x100 + 5 * (s.readV o.x).toNat ∧
      t.pc = s.pc + 2 ∧ OnlyChanges [.i, .pc] s t) ∧
    ((s.readV o.x).toNat ≥ 16 → exec (.fontV o) s = .next { s with fault := ⟨true, FaultType.code .invalidDigit, s.pc⟩ })

/-- R143: BCD stores the three decimal digits at `I`, hundreds first (the spec's own decision D15). -/
def Obligations.BcdStoresDigits : Prop :=
  ∀ (o : GroupV) (s : State), s.i.toNat + 3 ≤ 4096 → ∃ t h d u, exec (.bcdV o) s = .next t ∧
    t.mem.read s.i.toNat = some h ∧ t.mem.read (s.i.toNat + 1) = some d ∧ t.mem.read (s.i.toNat + 2) = some u ∧
    h.toNat * 100 + d.toNat * 10 + u.toNat = (s.readV o.x).toNat ∧ d.toNat < 10 ∧ u.toNat < 10 ∧
    SameMemOutside s.i.toNat 3 s t ∧ t.pc = s.pc + 2 ∧ OnlyChanges [.mem, .pc] s t

/-- R144: MOV (I),V0..Vx stores the registers V0 to Vx at `I`; `I` is unchanged (the spec's own decision D11). -/
def Obligations.BulkStoreWritesRegisters : Prop :=
  ∀ (o : GroupV) (s : State), s.i.toNat + (o.x.toNat + 1) ≤ 4096 → ∃ t, exec (.movMV o) s = .next t ∧
    (∀ k : Nibble, k.toNat ≤ o.x.toNat → t.mem.read (s.i.toNat + k.toNat) = some (s.readV k)) ∧
    SameMemOutside s.i.toNat (o.x.toNat + 1) s t ∧ t.pc = s.pc + 2 ∧ OnlyChanges [.mem, .pc] s t

/-- R145: MOV V0..Vx,(I) loads the registers V0 to Vx from `I`, and no other; `I` is unchanged (the spec's own decision D11). -/
def Obligations.BulkLoadReadsRegisters : Prop :=
  ∀ (o : GroupV) (s : State), s.i.toNat + (o.x.toNat + 1) ≤ 4096 → ∃ t, exec (.movVM o) s = .next t ∧
    (∀ k : Nibble, k.toNat ≤ o.x.toNat → s.mem.read (s.i.toNat + k.toNat) = some (t.readV k)) ∧
    (∀ k : Nibble, o.x.toNat < k.toNat → t.readV k = s.readV k) ∧ t.pc = s.pc + 2 ∧ OnlyChanges [.v, .pc] s t

/-- R144 then R145: registers stored and loaded back from the same `I`, whatever happened to the registers and `pc` in between, are
what they were. -/
def Obligations.BulkLoadRestoresBulkStore : Prop :=
  ∀ (o : GroupV) (s t u : State), s.i.toNat + (o.x.toNat + 1) ≤ 4096 → exec (.movMV o) s = .next t →
    OnlyChanges [.v, .pc] t u → ∃ r, exec (.movVM o) u = .next r ∧
      ∀ k : Nibble, k.toNat ≤ o.x.toNat → r.readV k = s.readV k

/-- R50: bytes stored by MOV (I),V0..Vx are what a fetch at that address reads next. The immediacy is the spec's own decision D19. -/
def Obligations.FetchSeesStoredBytes : Prop :=
  ∀ (o : GroupV) (s t : State), 1 ≤ o.x.toNat → s.i.toNat + (o.x.toNat + 1) ≤ 4096 → exec (.movMV o) s = .next t →
    (t.jump s.i).fetch = some (s.readV 0 ++ s.readV 1)

/-! ## Display (44_display.md) -/

/-- R150: CLS, 0x00E0, makes every pixel dark and writes no register. -/
def Obligations.ClsDarkensDisplay : Prop :=
  encode .cls = 0x00E0 ∧ ∀ s : State, ∃ t, exec .cls s = .next t ∧
    (∀ x y, x < 64 → y < 32 → t.disp.pixel x y = some false) ∧ t.pc = s.pc + 2 ∧ OnlyChanges [.disp, .pc] s t

/-- R151: DRW flips exactly the pixels under the sprite's 1 bits that lie on the grid, and VF is 1 iff one of them was lit. Origin,
clipping and bit order are as the spec's own decision D12 has them. -/
def Obligations.DrwFlipsSpritePixels : Prop :=
  ∀ (o : GroupVVN) (s : State), s.i.toNat + o.n.toNat ≤ 4096 →
    let on := spriteBit s (s.readV o.x).toNat (s.readV o.y).toNat o.n.toNat
    ∃ t, exec (.drwVVN o) s = .next t ∧
      (∀ x y, x < 64 → y < 32 → ∃ lit, s.disp.pixel x y = some lit ∧ t.disp.pixel x y = some (lit != on x y)) ∧
      (t.readV 15 = 0 ∨ t.readV 15 = 1) ∧
      (t.readV 15 = 1 ↔ ∃ x y, x < 64 ∧ y < 32 ∧ on x y = true ∧ s.disp.pixel x y = some true) ∧
      (∀ k, k ≠ 15 → t.readV k = s.readV k) ∧ t.pc = s.pc + 2 ∧ OnlyChanges [.v, .disp, .pc] s t

/-- R151's corner case: the same sprite drawn twice at the same place restores the display. The second draw sets VF to 1 iff the
sprite has a 1 bit on a pixel that was DARK before the first draw: so the pseudocode gives it, and the corner case's own words
("sets VF = 1 the second time") hold only where such a pixel was dark (log 19). VF as a coordinate is left out because the first
draw changes it. -/
def Obligations.DrwTwiceRestoresDisplay : Prop :=
  ∀ (o : GroupVVN) (s : State), s.i.toNat + o.n.toNat ≤ 4096 → o.x ≠ 15 → o.y ≠ 15 →
    ∃ t u, exec (.drwVVN o) s = .next t ∧ exec (.drwVVN o) t = .next u ∧
      (∀ x y, u.disp.pixel x y = s.disp.pixel x y) ∧
      (u.readV 15 = 1 ↔
        ∃ x y, x < 64 ∧ y < 32 ∧ spriteBit s (s.readV o.x).toNat (s.readV o.y).toNat o.n.toNat x y = true ∧
          s.disp.pixel x y = some false)

/-! ## Keypad and timer moves (45_keypad_timers.md) -/

/-- R160, R161, R166: SKP, 0xEx9E, skips when the key named by the whole byte Vx is pressed, SKNP, 0xExA1, when it is not; an index
of 16 or more is never pressed. -/
def Obligations.SkipsOnKey : Prop :=
  ∀ (o : GroupV) (s : State),
    (encode (.skpV o)).toNat = 0xE09E + 0x100 * o.x.toNat ∧ (encode (.sknpV o)).toNat = 0xE0A1 + 0x100 * o.x.toNat ∧
    let key := (s.readV o.x).toNat
    (∃ t, exec (.skpV o) s = .next t ∧ SetsPc s t (if key < 16 ∧ s.keys.getLsbD key = true then s.pc + 4 else s.pc + 2)) ∧
    ∃ t, exec (.sknpV o) s = .next t ∧ SetsPc s t (if key < 16 ∧ s.keys.getLsbD key = true then s.pc + 2 else s.pc + 4)

/-- R162: with a key pressed WKP writes the least pressed key and goes on. The level, not an edge, is the spec's own decision D22. -/
def Obligations.WkpTakesLeastKey : Prop :=
  ∀ (o : GroupV) (s : State) (k : Nat), k < 16 → s.keys.getLsbD k = true → (∀ j, j < k → s.keys.getLsbD j = false) →
    ∃ t, exec (.wkpV o) s = .next t ∧ WritesReg s t o.x (BitVec.ofNat 8 k)

/-- R162, R96: with no key pressed a cycle at a WKP changes only the timers: it is successful and the same instruction runs again.
The level, not an edge, is the spec's own decision D22. -/
def Obligations.WkpWaitsWithoutKey : Prop :=
  ∀ (o : GroupV) (s : State), s.Running → s.keys = 0 → s.fetch.bind decodeWord = some (.wkpV o) →
    step s = .next s.timerTick ∧ cycleOk s s.timerTick = true ∧ OnlyChanges [.dt, .st, .dtAcc, .stAcc] s s.timerTick

/-- R163, R164, R165: the three timer moves; a timer write does not touch an accumulator (the spec's own decision D8). -/
def Obligations.TimerMoves : Prop :=
  ∀ (o : GroupV) (s : State),
    (∃ t, exec (.movVDT o) s = .next t ∧ WritesReg s t o.x s.dt) ∧
    (∃ t, exec (.movDTV o) s = .next t ∧ t.dt = s.readV o.x ∧ t.pc = s.pc + 2 ∧ OnlyChanges [.dt, .pc] s t) ∧
    ∃ t, exec (.movSTV o) s = .next t ∧ t.st = s.readV o.x ∧ t.pc = s.pc + 2 ∧ OnlyChanges [.st, .pc] s t

/-! ## The host (10_state.md R19, R27; 20_memory.md R53; 60_exceptions.md R176; 70_reset_and_hazards.md R202) -/

/-- R176: the host's clearing of a fault changes nothing but the valid bit, and there is no retry: with nothing else changed the
next cycle latches the same fault at the same address. -/
def Obligations.ClearedFaultComesBack : Prop :=
  ∀ s t : State, s.Running → step s = .next t → t.Stopped →
    ∃ c, HostAction.clearFault.apply t = some c ∧ c = { t with fault := ⟨false, t.fault.type, t.fault.addr⟩ } ∧
      step c = .next t

/-- R53: the loader copies an image that fits and touches nothing else; one that would overrun is refused. That a failing load
writes nothing is the spec's own decision D23. -/
def Obligations.LoaderCopiesOrFails : Prop :=
  ∀ (s : State) (a : Nat) (image : List Byte),
    (a + image.length ≤ 4096 → ∃ t, (HostAction.loadImage a image).apply s = some t ∧
      (∀ k (h : k < image.length), t.mem.read (a + k) = some image[k]) ∧ SameMemOutside a image.length s t ∧
      OnlyChanges [.mem] s t) ∧
    (a + image.length > 4096 → (HostAction.loadImage a image).apply s = none)

/-- R19: the key diff, key by key (the spec marks the formula derived). -/
def Obligations.KeyDiff : Prop :=
  ∀ (before after : Word) (k : Nat), k < 16 →
    ((pressedSince before after).getLsbD k = true ↔ before.getLsbD k = false ∧ after.getLsbD k = true) ∧
    ((releasedSince before after).getLsbD k = true ↔ before.getLsbD k = true ∧ after.getLsbD k = false)

/-- R202: an idle machine that is running stays idle and running for ever: a cycle ticks the timers and changes nothing else. That
this is what "idle" means is the spec's own decision D24. -/
def Obligations.IdleStaysIdle : Prop :=
  ∀ s : State, s.Running → s.Idle →
    step s = .next s.timerTick ∧ s.timerTick.Idle ∧ s.timerTick.Running ∧
      OnlyChanges [.dt, .st, .dtAcc, .stAcc] s s.timerTick

/-- R27: a host write puts any value of the element's width into it, `sp` any of 0 to 16, and changes nothing else. For `FAULT.type`
that is each of the eight 3-bit values, with a name in R170 or not, and a machine whose latch the host has made valid is frozen
(R91). That every value of the width may be written is the spec's own decision D21. -/
def Obligations.HostWritesAnyValueOfTheWidth : Prop :=
  ∀ s : State,
    (∀ (v : Bool) (type : BitVec 3) (addr : Word), ∃ t, (HostAction.writeFault ⟨v, type, addr⟩).apply s = some t ∧
      t.fault.valid = v ∧ t.fault.type = type ∧ t.fault.addr = addr ∧ OnlyChanges [.fault] s t ∧
      (v = true → step t = .next t)) ∧
    (∀ w, ∃ t, (HostAction.writePc w).apply s = some t ∧ t.pc = w ∧ OnlyChanges [.pc] s t) ∧
    (∀ x b, ∃ t, (HostAction.writeV x b).apply s = some t ∧ t.readV x = b ∧ (∀ k, k ≠ x → t.readV k = s.readV k) ∧
      OnlyChanges [.v] s t) ∧
    (∀ w, ∃ t, (HostAction.writeI w).apply s = some t ∧ t.i = w ∧ OnlyChanges [.i] s t) ∧
    (∀ b, ∃ t, (HostAction.writeDT b).apply s = some t ∧ t.dt = b ∧ OnlyChanges [.dt] s t) ∧
    (∀ b, ∃ t, (HostAction.writeST b).apply s = some t ∧ t.st = b ∧ OnlyChanges [.st] s t) ∧
    (∀ a b, a < 4096 → ∃ t, (HostAction.writeMem a b).apply s = some t ∧ t.mem.read a = some b ∧ SameMemOutside a 1 s t ∧
      OnlyChanges [.mem] s t) ∧
    (∀ k w, ∃ t, (HostAction.writeStack k w).apply s = some t ∧ t.stack[k] = w ∧
      (∀ j : Fin 16, j ≠ k → t.stack[j] = s.stack[j]) ∧ OnlyChanges [.stack] s t) ∧
    (∀ n, ∃ t, (HostAction.writeSp n).apply s = some t ∧ t.sp = n ∧ OnlyChanges [.sp] s t) ∧
    (∀ w, ∃ t, (HostAction.writeKeys w).apply s = some t ∧ t.keys = w ∧ OnlyChanges [.keys] s t) ∧
    (∀ x y b, ∃ t, (HostAction.writePixel x y b).apply s = some t ∧ t.disp.pixel x.val y.val = some b ∧
      (∀ x' y', ¬(x' = x.val ∧ y' = y.val) → t.disp.pixel x' y' = s.disp.pixel x' y') ∧ OnlyChanges [.disp] s t) ∧
    ∀ r, ∃ t, (HostAction.writeRate r).apply s = some t ∧ t.masterClockRate = r ∧ OnlyChanges [.masterClockRate] s t
end

