-- ==== Sys2Proof/Laws/State.lean ====
section
/-! SUPPORT. One lemma per field per named update of the state, so that no later proof unfolds a record update. The general
registers after a write are in Laws/Operands.lean. -/

namespace Sys2Proof.Machine

/-! ### `jump` -/

@[simp] theorem State.jump_v (s : State) (w : Word) : (s.jump w).v = s.v := rfl
@[simp] theorem State.jump_i (s : State) (w : Word) : (s.jump w).i = s.i := rfl
@[simp] theorem State.jump_dt (s : State) (w : Word) : (s.jump w).dt = s.dt := rfl
@[simp] theorem State.jump_st (s : State) (w : Word) : (s.jump w).st = s.st := rfl
@[simp] theorem State.jump_pc (s : State) (w : Word) : (s.jump w).pc = w := rfl
@[simp] theorem State.jump_mem (s : State) (w : Word) : (s.jump w).mem = s.mem := rfl
@[simp] theorem State.jump_stack (s : State) (w : Word) : (s.jump w).stack = s.stack := rfl
@[simp] theorem State.jump_sp (s : State) (w : Word) : (s.jump w).sp = s.sp := rfl
@[simp] theorem State.jump_keys (s : State) (w : Word) : (s.jump w).keys = s.keys := rfl
@[simp] theorem State.jump_disp (s : State) (w : Word) : (s.jump w).disp = s.disp := rfl
@[simp] theorem State.jump_fault (s : State) (w : Word) : (s.jump w).fault = s.fault := rfl
@[simp] theorem State.jump_masterClockRate (s : State) (w : Word) : (s.jump w).masterClockRate = s.masterClockRate := rfl
@[simp] theorem State.jump_dtAcc (s : State) (w : Word) : (s.jump w).dtAcc = s.dtAcc := rfl
@[simp] theorem State.jump_stAcc (s : State) (w : Word) : (s.jump w).stAcc = s.stAcc := rfl
@[simp] theorem State.jump_draws (s : State) (w : Word) : (s.jump w).draws = s.draws := rfl

/-! ### `advance` -/

@[simp] theorem State.advance_v (s : State) : (s.advance).v = s.v := rfl
@[simp] theorem State.advance_i (s : State) : (s.advance).i = s.i := rfl
@[simp] theorem State.advance_dt (s : State) : (s.advance).dt = s.dt := rfl
@[simp] theorem State.advance_st (s : State) : (s.advance).st = s.st := rfl
@[simp] theorem State.advance_pc (s : State) : (s.advance).pc = s.pc + 2 := rfl
@[simp] theorem State.advance_mem (s : State) : (s.advance).mem = s.mem := rfl
@[simp] theorem State.advance_stack (s : State) : (s.advance).stack = s.stack := rfl
@[simp] theorem State.advance_sp (s : State) : (s.advance).sp = s.sp := rfl
@[simp] theorem State.advance_keys (s : State) : (s.advance).keys = s.keys := rfl
@[simp] theorem State.advance_disp (s : State) : (s.advance).disp = s.disp := rfl
@[simp] theorem State.advance_fault (s : State) : (s.advance).fault = s.fault := rfl
@[simp] theorem State.advance_masterClockRate (s : State) : (s.advance).masterClockRate = s.masterClockRate := rfl
@[simp] theorem State.advance_dtAcc (s : State) : (s.advance).dtAcc = s.dtAcc := rfl
@[simp] theorem State.advance_stAcc (s : State) : (s.advance).stAcc = s.stAcc := rfl
@[simp] theorem State.advance_draws (s : State) : (s.advance).draws = s.draws := rfl

/-! ### `skipIf` -/

@[simp] theorem State.skipIf_v (s : State) (c : Bool) : (s.skipIf c).v = s.v := rfl
@[simp] theorem State.skipIf_i (s : State) (c : Bool) : (s.skipIf c).i = s.i := rfl
@[simp] theorem State.skipIf_dt (s : State) (c : Bool) : (s.skipIf c).dt = s.dt := rfl
@[simp] theorem State.skipIf_st (s : State) (c : Bool) : (s.skipIf c).st = s.st := rfl
@[simp] theorem State.skipIf_pc (s : State) (c : Bool) : (s.skipIf c).pc = if c then s.pc + 4 else s.pc + 2 := rfl
@[simp] theorem State.skipIf_mem (s : State) (c : Bool) : (s.skipIf c).mem = s.mem := rfl
@[simp] theorem State.skipIf_stack (s : State) (c : Bool) : (s.skipIf c).stack = s.stack := rfl
@[simp] theorem State.skipIf_sp (s : State) (c : Bool) : (s.skipIf c).sp = s.sp := rfl
@[simp] theorem State.skipIf_keys (s : State) (c : Bool) : (s.skipIf c).keys = s.keys := rfl
@[simp] theorem State.skipIf_disp (s : State) (c : Bool) : (s.skipIf c).disp = s.disp := rfl
@[simp] theorem State.skipIf_fault (s : State) (c : Bool) : (s.skipIf c).fault = s.fault := rfl
@[simp] theorem State.skipIf_masterClockRate (s : State) (c : Bool) : (s.skipIf c).masterClockRate = s.masterClockRate := rfl
@[simp] theorem State.skipIf_dtAcc (s : State) (c : Bool) : (s.skipIf c).dtAcc = s.dtAcc := rfl
@[simp] theorem State.skipIf_stAcc (s : State) (c : Bool) : (s.skipIf c).stAcc = s.stAcc := rfl
@[simp] theorem State.skipIf_draws (s : State) (c : Bool) : (s.skipIf c).draws = s.draws := rfl

/-! ### `writeV` -/

@[simp] theorem State.writeV_i (s : State) (x : Nibble) (b : Byte) : (s.writeV x b).i = s.i := rfl
@[simp] theorem State.writeV_dt (s : State) (x : Nibble) (b : Byte) : (s.writeV x b).dt = s.dt := rfl
@[simp] theorem State.writeV_st (s : State) (x : Nibble) (b : Byte) : (s.writeV x b).st = s.st := rfl
@[simp] theorem State.writeV_pc (s : State) (x : Nibble) (b : Byte) : (s.writeV x b).pc = s.pc := rfl
@[simp] theorem State.writeV_mem (s : State) (x : Nibble) (b : Byte) : (s.writeV x b).mem = s.mem := rfl
@[simp] theorem State.writeV_stack (s : State) (x : Nibble) (b : Byte) : (s.writeV x b).stack = s.stack := rfl
@[simp] theorem State.writeV_sp (s : State) (x : Nibble) (b : Byte) : (s.writeV x b).sp = s.sp := rfl
@[simp] theorem State.writeV_keys (s : State) (x : Nibble) (b : Byte) : (s.writeV x b).keys = s.keys := rfl
@[simp] theorem State.writeV_disp (s : State) (x : Nibble) (b : Byte) : (s.writeV x b).disp = s.disp := rfl
@[simp] theorem State.writeV_fault (s : State) (x : Nibble) (b : Byte) : (s.writeV x b).fault = s.fault := rfl
@[simp] theorem State.writeV_masterClockRate (s : State) (x : Nibble) (b : Byte) : (s.writeV x b).masterClockRate = s.masterClockRate := rfl
@[simp] theorem State.writeV_dtAcc (s : State) (x : Nibble) (b : Byte) : (s.writeV x b).dtAcc = s.dtAcc := rfl
@[simp] theorem State.writeV_stAcc (s : State) (x : Nibble) (b : Byte) : (s.writeV x b).stAcc = s.stAcc := rfl
@[simp] theorem State.writeV_draws (s : State) (x : Nibble) (b : Byte) : (s.writeV x b).draws = s.draws := rfl

/-! ### `writeI` -/

@[simp] theorem State.writeI_v (s : State) (w : Word) : (s.writeI w).v = s.v := rfl
@[simp] theorem State.writeI_i (s : State) (w : Word) : (s.writeI w).i = w := rfl
@[simp] theorem State.writeI_dt (s : State) (w : Word) : (s.writeI w).dt = s.dt := rfl
@[simp] theorem State.writeI_st (s : State) (w : Word) : (s.writeI w).st = s.st := rfl
@[simp] theorem State.writeI_pc (s : State) (w : Word) : (s.writeI w).pc = s.pc := rfl
@[simp] theorem State.writeI_mem (s : State) (w : Word) : (s.writeI w).mem = s.mem := rfl
@[simp] theorem State.writeI_stack (s : State) (w : Word) : (s.writeI w).stack = s.stack := rfl
@[simp] theorem State.writeI_sp (s : State) (w : Word) : (s.writeI w).sp = s.sp := rfl
@[simp] theorem State.writeI_keys (s : State) (w : Word) : (s.writeI w).keys = s.keys := rfl
@[simp] theorem State.writeI_disp (s : State) (w : Word) : (s.writeI w).disp = s.disp := rfl
@[simp] theorem State.writeI_fault (s : State) (w : Word) : (s.writeI w).fault = s.fault := rfl
@[simp] theorem State.writeI_masterClockRate (s : State) (w : Word) : (s.writeI w).masterClockRate = s.masterClockRate := rfl
@[simp] theorem State.writeI_dtAcc (s : State) (w : Word) : (s.writeI w).dtAcc = s.dtAcc := rfl
@[simp] theorem State.writeI_stAcc (s : State) (w : Word) : (s.writeI w).stAcc = s.stAcc := rfl
@[simp] theorem State.writeI_draws (s : State) (w : Word) : (s.writeI w).draws = s.draws := rfl

/-! ### `loadRegs` -/

@[simp] theorem State.loadRegs_i (s : State) (bs : List Byte) : (s.loadRegs bs).i = s.i := by simp only [State.loadRegs]
@[simp] theorem State.loadRegs_dt (s : State) (bs : List Byte) : (s.loadRegs bs).dt = s.dt := by simp only [State.loadRegs]
@[simp] theorem State.loadRegs_st (s : State) (bs : List Byte) : (s.loadRegs bs).st = s.st := by simp only [State.loadRegs]
@[simp] theorem State.loadRegs_pc (s : State) (bs : List Byte) : (s.loadRegs bs).pc = s.pc := by simp only [State.loadRegs]
@[simp] theorem State.loadRegs_mem (s : State) (bs : List Byte) : (s.loadRegs bs).mem = s.mem := by simp only [State.loadRegs]
@[simp] theorem State.loadRegs_stack (s : State) (bs : List Byte) : (s.loadRegs bs).stack = s.stack := by simp only [State.loadRegs]
@[simp] theorem State.loadRegs_sp (s : State) (bs : List Byte) : (s.loadRegs bs).sp = s.sp := by simp only [State.loadRegs]
@[simp] theorem State.loadRegs_keys (s : State) (bs : List Byte) : (s.loadRegs bs).keys = s.keys := by simp only [State.loadRegs]
@[simp] theorem State.loadRegs_disp (s : State) (bs : List Byte) : (s.loadRegs bs).disp = s.disp := by simp only [State.loadRegs]
@[simp] theorem State.loadRegs_fault (s : State) (bs : List Byte) : (s.loadRegs bs).fault = s.fault := by simp only [State.loadRegs]
@[simp] theorem State.loadRegs_masterClockRate (s : State) (bs : List Byte) : (s.loadRegs bs).masterClockRate = s.masterClockRate := by simp only [State.loadRegs]
@[simp] theorem State.loadRegs_dtAcc (s : State) (bs : List Byte) : (s.loadRegs bs).dtAcc = s.dtAcc := by simp only [State.loadRegs]
@[simp] theorem State.loadRegs_stAcc (s : State) (bs : List Byte) : (s.loadRegs bs).stAcc = s.stAcc := by simp only [State.loadRegs]
@[simp] theorem State.loadRegs_draws (s : State) (bs : List Byte) : (s.loadRegs bs).draws = s.draws := by simp only [State.loadRegs]

/-! ### `writeFlagThenResult` -/

@[simp] theorem State.writeFlagThenResult_i (s : State) (x : Nibble) (c : Bool) (r : Byte) : (s.writeFlagThenResult x c r).i = s.i := by
  simp only [State.writeFlagThenResult, State.writeV_i]
@[simp] theorem State.writeFlagThenResult_dt (s : State) (x : Nibble) (c : Bool) (r : Byte) : (s.writeFlagThenResult x c r).dt = s.dt := by
  simp only [State.writeFlagThenResult, State.writeV_dt]
@[simp] theorem State.writeFlagThenResult_st (s : State) (x : Nibble) (c : Bool) (r : Byte) : (s.writeFlagThenResult x c r).st = s.st := by
  simp only [State.writeFlagThenResult, State.writeV_st]
@[simp] theorem State.writeFlagThenResult_pc (s : State) (x : Nibble) (c : Bool) (r : Byte) : (s.writeFlagThenResult x c r).pc = s.pc := by
  simp only [State.writeFlagThenResult, State.writeV_pc]
@[simp] theorem State.writeFlagThenResult_mem (s : State) (x : Nibble) (c : Bool) (r : Byte) : (s.writeFlagThenResult x c r).mem = s.mem := by
  simp only [State.writeFlagThenResult, State.writeV_mem]
@[simp] theorem State.writeFlagThenResult_stack (s : State) (x : Nibble) (c : Bool) (r : Byte) : (s.writeFlagThenResult x c r).stack = s.stack := by
  simp only [State.writeFlagThenResult, State.writeV_stack]
@[simp] theorem State.writeFlagThenResult_sp (s : State) (x : Nibble) (c : Bool) (r : Byte) : (s.writeFlagThenResult x c r).sp = s.sp := by
  simp only [State.writeFlagThenResult, State.writeV_sp]
@[simp] theorem State.writeFlagThenResult_keys (s : State) (x : Nibble) (c : Bool) (r : Byte) : (s.writeFlagThenResult x c r).keys = s.keys := by
  simp only [State.writeFlagThenResult, State.writeV_keys]
@[simp] theorem State.writeFlagThenResult_disp (s : State) (x : Nibble) (c : Bool) (r : Byte) : (s.writeFlagThenResult x c r).disp = s.disp := by
  simp only [State.writeFlagThenResult, State.writeV_disp]
@[simp] theorem State.writeFlagThenResult_fault (s : State) (x : Nibble) (c : Bool) (r : Byte) : (s.writeFlagThenResult x c r).fault = s.fault := by
  simp only [State.writeFlagThenResult, State.writeV_fault]
@[simp] theorem State.writeFlagThenResult_masterClockRate (s : State) (x : Nibble) (c : Bool) (r : Byte) : (s.writeFlagThenResult x c r).masterClockRate = s.masterClockRate := by
  simp only [State.writeFlagThenResult, State.writeV_masterClockRate]
@[simp] theorem State.writeFlagThenResult_dtAcc (s : State) (x : Nibble) (c : Bool) (r : Byte) : (s.writeFlagThenResult x c r).dtAcc = s.dtAcc := by
  simp only [State.writeFlagThenResult, State.writeV_dtAcc]
@[simp] theorem State.writeFlagThenResult_stAcc (s : State) (x : Nibble) (c : Bool) (r : Byte) : (s.writeFlagThenResult x c r).stAcc = s.stAcc := by
  simp only [State.writeFlagThenResult, State.writeV_stAcc]
@[simp] theorem State.writeFlagThenResult_draws (s : State) (x : Nibble) (c : Bool) (r : Byte) : (s.writeFlagThenResult x c r).draws = s.draws := by
  simp only [State.writeFlagThenResult, State.writeV_draws]

/-! ### `drawSprite` -/

@[simp] theorem State.drawSprite_i (s : State) (x0 y0 : Nat) (rows : List Byte) : (s.drawSprite x0 y0 rows).i = s.i := by
  simp only [State.drawSprite, State.advance_i, State.writeV_i]
@[simp] theorem State.drawSprite_dt (s : State) (x0 y0 : Nat) (rows : List Byte) : (s.drawSprite x0 y0 rows).dt = s.dt := by
  simp only [State.drawSprite, State.advance_dt, State.writeV_dt]
@[simp] theorem State.drawSprite_st (s : State) (x0 y0 : Nat) (rows : List Byte) : (s.drawSprite x0 y0 rows).st = s.st := by
  simp only [State.drawSprite, State.advance_st, State.writeV_st]
@[simp] theorem State.drawSprite_pc (s : State) (x0 y0 : Nat) (rows : List Byte) : (s.drawSprite x0 y0 rows).pc = s.pc + 2 := by
  simp only [State.drawSprite, State.advance_pc, State.writeV_pc]
@[simp] theorem State.drawSprite_mem (s : State) (x0 y0 : Nat) (rows : List Byte) : (s.drawSprite x0 y0 rows).mem = s.mem := by
  simp only [State.drawSprite, State.advance_mem, State.writeV_mem]
@[simp] theorem State.drawSprite_stack (s : State) (x0 y0 : Nat) (rows : List Byte) : (s.drawSprite x0 y0 rows).stack = s.stack := by
  simp only [State.drawSprite, State.advance_stack, State.writeV_stack]
@[simp] theorem State.drawSprite_sp (s : State) (x0 y0 : Nat) (rows : List Byte) : (s.drawSprite x0 y0 rows).sp = s.sp := by
  simp only [State.drawSprite, State.advance_sp, State.writeV_sp]
@[simp] theorem State.drawSprite_keys (s : State) (x0 y0 : Nat) (rows : List Byte) : (s.drawSprite x0 y0 rows).keys = s.keys := by
  simp only [State.drawSprite, State.advance_keys, State.writeV_keys]
@[simp] theorem State.drawSprite_disp (s : State) (x0 y0 : Nat) (rows : List Byte) : (s.drawSprite x0 y0 rows).disp = (plotRows x0 y0 rows (s.disp, false)).1 := by
  simp only [State.drawSprite, State.advance_disp, State.writeV_disp]
@[simp] theorem State.drawSprite_fault (s : State) (x0 y0 : Nat) (rows : List Byte) : (s.drawSprite x0 y0 rows).fault = s.fault := by
  simp only [State.drawSprite, State.advance_fault, State.writeV_fault]
@[simp] theorem State.drawSprite_masterClockRate (s : State) (x0 y0 : Nat) (rows : List Byte) : (s.drawSprite x0 y0 rows).masterClockRate = s.masterClockRate := by
  simp only [State.drawSprite, State.advance_masterClockRate, State.writeV_masterClockRate]
@[simp] theorem State.drawSprite_dtAcc (s : State) (x0 y0 : Nat) (rows : List Byte) : (s.drawSprite x0 y0 rows).dtAcc = s.dtAcc := by
  simp only [State.drawSprite, State.advance_dtAcc, State.writeV_dtAcc]
@[simp] theorem State.drawSprite_stAcc (s : State) (x0 y0 : Nat) (rows : List Byte) : (s.drawSprite x0 y0 rows).stAcc = s.stAcc := by
  simp only [State.drawSprite, State.advance_stAcc, State.writeV_stAcc]
@[simp] theorem State.drawSprite_draws (s : State) (x0 y0 : Nat) (rows : List Byte) : (s.drawSprite x0 y0 rows).draws = s.draws := by
  simp only [State.drawSprite, State.advance_draws, State.writeV_draws]

/-! ### `drawn` -/

@[simp] theorem State.drawn_v (s : State) : (s.drawn).v = s.v := rfl
@[simp] theorem State.drawn_i (s : State) : (s.drawn).i = s.i := rfl
@[simp] theorem State.drawn_dt (s : State) : (s.drawn).dt = s.dt := rfl
@[simp] theorem State.drawn_st (s : State) : (s.drawn).st = s.st := rfl
@[simp] theorem State.drawn_pc (s : State) : (s.drawn).pc = s.pc := rfl
@[simp] theorem State.drawn_mem (s : State) : (s.drawn).mem = s.mem := rfl
@[simp] theorem State.drawn_stack (s : State) : (s.drawn).stack = s.stack := rfl
@[simp] theorem State.drawn_sp (s : State) : (s.drawn).sp = s.sp := rfl
@[simp] theorem State.drawn_keys (s : State) : (s.drawn).keys = s.keys := rfl
@[simp] theorem State.drawn_disp (s : State) : (s.drawn).disp = s.disp := rfl
@[simp] theorem State.drawn_fault (s : State) : (s.drawn).fault = s.fault := rfl
@[simp] theorem State.drawn_masterClockRate (s : State) : (s.drawn).masterClockRate = s.masterClockRate := rfl
@[simp] theorem State.drawn_dtAcc (s : State) : (s.drawn).dtAcc = s.dtAcc := rfl
@[simp] theorem State.drawn_stAcc (s : State) : (s.drawn).stAcc = s.stAcc := rfl
@[simp] theorem State.drawn_draws (s : State) : (s.drawn).draws = s.draws + 1 := rfl

/-! ### `latchFault` -/

@[simp] theorem State.latchFault_v (s : State) (t : FaultType) : (s.latchFault t).v = s.v := rfl
@[simp] theorem State.latchFault_i (s : State) (t : FaultType) : (s.latchFault t).i = s.i := rfl
@[simp] theorem State.latchFault_dt (s : State) (t : FaultType) : (s.latchFault t).dt = s.dt := rfl
@[simp] theorem State.latchFault_st (s : State) (t : FaultType) : (s.latchFault t).st = s.st := rfl
@[simp] theorem State.latchFault_pc (s : State) (t : FaultType) : (s.latchFault t).pc = s.pc := rfl
@[simp] theorem State.latchFault_mem (s : State) (t : FaultType) : (s.latchFault t).mem = s.mem := rfl
@[simp] theorem State.latchFault_stack (s : State) (t : FaultType) : (s.latchFault t).stack = s.stack := rfl
@[simp] theorem State.latchFault_sp (s : State) (t : FaultType) : (s.latchFault t).sp = s.sp := rfl
@[simp] theorem State.latchFault_keys (s : State) (t : FaultType) : (s.latchFault t).keys = s.keys := rfl
@[simp] theorem State.latchFault_disp (s : State) (t : FaultType) : (s.latchFault t).disp = s.disp := rfl
@[simp] theorem State.latchFault_fault (s : State) (t : FaultType) : (s.latchFault t).fault = ⟨true, t.code, s.pc⟩ := rfl
@[simp] theorem State.latchFault_masterClockRate (s : State) (t : FaultType) : (s.latchFault t).masterClockRate = s.masterClockRate := rfl
@[simp] theorem State.latchFault_dtAcc (s : State) (t : FaultType) : (s.latchFault t).dtAcc = s.dtAcc := rfl
@[simp] theorem State.latchFault_stAcc (s : State) (t : FaultType) : (s.latchFault t).stAcc = s.stAcc := rfl
@[simp] theorem State.latchFault_draws (s : State) (t : FaultType) : (s.latchFault t).draws = s.draws := rfl

/-! ### `clearFault` -/

@[simp] theorem State.clearFault_v (s : State) : (s.clearFault).v = s.v := rfl
@[simp] theorem State.clearFault_i (s : State) : (s.clearFault).i = s.i := rfl
@[simp] theorem State.clearFault_dt (s : State) : (s.clearFault).dt = s.dt := rfl
@[simp] theorem State.clearFault_st (s : State) : (s.clearFault).st = s.st := rfl
@[simp] theorem State.clearFault_pc (s : State) : (s.clearFault).pc = s.pc := rfl
@[simp] theorem State.clearFault_mem (s : State) : (s.clearFault).mem = s.mem := rfl
@[simp] theorem State.clearFault_stack (s : State) : (s.clearFault).stack = s.stack := rfl
@[simp] theorem State.clearFault_sp (s : State) : (s.clearFault).sp = s.sp := rfl
@[simp] theorem State.clearFault_keys (s : State) : (s.clearFault).keys = s.keys := rfl
@[simp] theorem State.clearFault_disp (s : State) : (s.clearFault).disp = s.disp := rfl
@[simp] theorem State.clearFault_fault (s : State) : (s.clearFault).fault = ⟨false, s.fault.type, s.fault.addr⟩ := rfl
@[simp] theorem State.clearFault_masterClockRate (s : State) : (s.clearFault).masterClockRate = s.masterClockRate := rfl
@[simp] theorem State.clearFault_dtAcc (s : State) : (s.clearFault).dtAcc = s.dtAcc := rfl
@[simp] theorem State.clearFault_stAcc (s : State) : (s.clearFault).stAcc = s.stAcc := rfl
@[simp] theorem State.clearFault_draws (s : State) : (s.clearFault).draws = s.draws := rfl

/-! ### `timerTick` -/

@[simp] theorem State.timerTick_v (s : State) : (s.timerTick).v = s.v := rfl
@[simp] theorem State.timerTick_i (s : State) : (s.timerTick).i = s.i := rfl
@[simp] theorem State.timerTick_dt (s : State) : (s.timerTick).dt = nextTimer s.masterClockRate s.dtAcc s.dt := rfl
@[simp] theorem State.timerTick_st (s : State) : (s.timerTick).st = nextTimer s.masterClockRate s.stAcc s.st := rfl
@[simp] theorem State.timerTick_pc (s : State) : (s.timerTick).pc = s.pc := rfl
@[simp] theorem State.timerTick_mem (s : State) : (s.timerTick).mem = s.mem := rfl
@[simp] theorem State.timerTick_stack (s : State) : (s.timerTick).stack = s.stack := rfl
@[simp] theorem State.timerTick_sp (s : State) : (s.timerTick).sp = s.sp := rfl
@[simp] theorem State.timerTick_keys (s : State) : (s.timerTick).keys = s.keys := rfl
@[simp] theorem State.timerTick_disp (s : State) : (s.timerTick).disp = s.disp := rfl
@[simp] theorem State.timerTick_fault (s : State) : (s.timerTick).fault = s.fault := rfl
@[simp] theorem State.timerTick_masterClockRate (s : State) : (s.timerTick).masterClockRate = s.masterClockRate := rfl
@[simp] theorem State.timerTick_dtAcc (s : State) : (s.timerTick).dtAcc = nextAcc s.masterClockRate s.dtAcc := rfl
@[simp] theorem State.timerTick_stAcc (s : State) : (s.timerTick).stAcc = nextAcc s.masterClockRate s.stAcc := rfl
@[simp] theorem State.timerTick_draws (s : State) : (s.timerTick).draws = s.draws := rfl

/-! ### Registers after an update that leaves them alone -/

@[simp] theorem State.jump_readV (s : State) (w : Word) (k : Nibble) : (s.jump w).readV k = s.readV k := rfl
@[simp] theorem State.advance_readV (s : State) (k : Nibble) : (s.advance).readV k = s.readV k := rfl
@[simp] theorem State.skipIf_readV (s : State) (c : Bool) (k : Nibble) : (s.skipIf c).readV k = s.readV k := rfl
@[simp] theorem State.writeI_readV (s : State) (w : Word) (k : Nibble) : (s.writeI w).readV k = s.readV k := rfl
@[simp] theorem State.drawn_readV (s : State) (k : Nibble) : (s.drawn).readV k = s.readV k := rfl
@[simp] theorem State.latchFault_readV (s : State) (t : FaultType) (k : Nibble) : (s.latchFault t).readV k = s.readV k := rfl
@[simp] theorem State.clearFault_readV (s : State) (k : Nibble) : (s.clearFault).readV k = s.readV k := rfl
@[simp] theorem State.timerTick_readV (s : State) (k : Nibble) : (s.timerTick).readV k = s.readV k := rfl

end Sys2Proof.Machine
end

