-- ==== Sys2Proof/Laws/Operands.lean ====
section
/-! SUPPORT. The laws of the operand forms: registers, pixels, keys, the register lists of the bulk transfers. -/

namespace Sys2Proof.Machine

/-! ## Registers -/

@[simp] theorem State.readV_writeV_self (s : State) (x : Nibble) (b : Byte) : (s.writeV x b).readV x = b := by
  simp [State.readV, State.writeV]

theorem State.readV_writeV_of_ne (s : State) (x k : Nibble) (b : Byte) (h : k ≠ x) :
    (s.writeV x b).readV k = s.readV k := by
  have hn : x.toNat ≠ k.toNat := fun e => h (BitVec.eq_of_toNat_eq e.symm)
  simp [State.readV, State.writeV, hn]

/-- Flag first, result second (42_alu.md R120): the result stands in `x` whatever `x` is. -/
@[simp] theorem State.readV_writeFlagThenResult_self (s : State) (x : Nibble) (c : Bool) (r : Byte) :
    (s.writeFlagThenResult x c r).readV x = r := by
  simp [State.writeFlagThenResult]

theorem State.readV_writeFlagThenResult_vf (s : State) (x : Nibble) (c : Bool) (r : Byte) (h : x ≠ vf) :
    (s.writeFlagThenResult x c r).readV vf = flagByte c := by
  rw [State.writeFlagThenResult, State.readV_writeV_of_ne _ _ _ _ (Ne.symm h), State.readV_writeV_self]

theorem State.readV_writeFlagThenResult_of_ne (s : State) (x k : Nibble) (c : Bool) (r : Byte) (h : k ≠ x) (hf : k ≠ vf) :
    (s.writeFlagThenResult x c r).readV k = s.readV k := by
  rw [State.writeFlagThenResult, State.readV_writeV_of_ne _ _ _ _ h, State.readV_writeV_of_ne _ _ _ _ hf]

/-- A bulk load gives register `k` its byte when the list has one, and leaves it alone when not. -/
theorem State.readV_loadRegs (s : State) (bs : List Byte) (k : Nibble) :
    (s.loadRegs bs).readV k = (bs[k.toNat]?).getD (s.readV k) := by
  simp [State.readV, State.loadRegs, loadedRegs]

@[simp] theorem State.firstRegs_length (s : State) (x : Nibble) : (s.firstRegs x).length = x.toNat + 1 := by
  have := x.isLt
  simp [State.firstRegs]
  omega

/-- Entry `k` of the list V0 to Vx is register `k`. -/
theorem State.firstRegs_getElem (s : State) (x k : Nibble) (h : k.toNat < (s.firstRegs x).length) :
    (s.firstRegs x)[k.toNat] = s.readV k := by
  simp [State.firstRegs, State.readV]

/-! ## Pixels -/

theorem Display.pixel_of_valid (d : Display) (x y : Nat) (hx : x < 64) (hy : y < 32) : d.pixel x y = some (d[y][x]) := by
  simp [Display.pixel, hx, hy]

theorem Display.pixel_of_invalid (d : Display) (x y : Nat) (h : ¬(x < 64 ∧ y < 32)) : d.pixel x y = none := by
  simp [Display.pixel, h]

@[simp] theorem Display.pixel_setPixel_self (d : Display) (x y : Nat) (b : Bool) (hx : x < 64) (hy : y < 32) :
    (d.setPixel x y b).pixel x y = some b := by
  simp [Display.pixel, Display.setPixel, hx, hy]

theorem Display.pixel_setPixel_of_ne (d : Display) (x y x' y' : Nat) (b : Bool) (h : ¬(x' = x ∧ y' = y)) :
    (d.setPixel x y b).pixel x' y' = d.pixel x' y' := by
  unfold Display.pixel Display.setPixel
  by_cases hv : x < 64 ∧ y < 32
  · by_cases hv' : x' < 64 ∧ y' < 32
    · simp only [hv, hv', and_self, dif_pos, Option.some.injEq]
      by_cases hy : y' = y
      · subst hy
        have hx : ¬x = x' := fun e => h ⟨e.symm, rfl⟩
        simp [hx]
      · have hy' : ¬y = y' := fun e => hy e.symm
        simp [hy']
    · simp [hv']
  · simp [hv]

@[simp] theorem Display.pixel_dark (x y : Nat) (hx : x < 64) (hy : y < 32) : Display.dark.pixel x y = some false := by
  simp [Display.pixel, Display.dark, hx, hy]

/-! ## Keys -/

/-- `Pressed(v)` (45_keypad_timers.md R166). -/
theorem State.pressed_iff (s : State) (b : Byte) :
    s.pressed b = true ↔ b.toNat < 16 ∧ s.keys.getLsbD b.toNat = true := by
  simp [State.pressed]

/-- No key is pressed exactly when KEYS is zero. -/
theorem leastKey_eq_none_iff (keys : Word) : leastKey keys = none ↔ keys = 0 := by
  simp only [leastKey, List.find?_eq_none, List.mem_range]
  constructor
  · intro h
    refine BitVec.eq_of_getLsbD_eq fun k hk => ?_
    have := h k hk
    simpa using this
  · rintro rfl
    simp

/-- The key WKP takes is pressed and no lower one is (45_keypad_timers.md R162). -/
theorem leastKey_eq_some_iff (keys : Word) (k : Nat) :
    leastKey keys = some k ↔ k < 16 ∧ keys.getLsbD k = true ∧ ∀ j, j < k → keys.getLsbD j = false := by
  simp only [leastKey, List.find?_range_eq_some, List.mem_range]
  constructor
  · rintro ⟨h1, h2, h3⟩
    exact ⟨h2, h1, fun j hj => by simpa using h3 j hj⟩
  · rintro ⟨h2, h1, h3⟩
    exact ⟨h1, h2, fun j hj => by simpa using h3 j hj⟩

end Sys2Proof.Machine
end

