-- ==== Sys2Proof/Laws/Display.lean ====
section
/-! SUPPORT. What DRW's loops do (44_display.md R151), pixel by pixel: each sprite bit names a pixel of its own, so a pixel is flipped
at most once, and `hit` says whether a lit pixel was flipped. -/

namespace Sys2Proof.Machine

/-- What drawing a set of 1 bits on a display means: the pixels of the set are flipped, the others are not, and the second
component tells whether a lit pixel was among them (or had been before). -/
structure DrawsSet (on : Nat → Nat → Bool) (before after : Display × Bool) : Prop where
  pixel : ∀ x y, x < 64 → y < 32 → after.1.pixel x y = (before.1.pixel x y).map fun lit => xor lit (on x y)
  hit : after.2 = true ↔ before.2 = true ∨ ∃ x y, x < 64 ∧ y < 32 ∧ on x y = true ∧ before.1.pixel x y = some true

theorem DrawsSet.refl (acc : Display × Bool) : DrawsSet (fun _ _ => false) acc acc where
  pixel x y _ _ := by cases acc.1.pixel x y <;> simp
  hit := by simp

/-- Drawing two sets one after the other draws their union, when they share no pixel. -/
theorem DrawsSet.trans {p q : Nat → Nat → Bool} {a b c : Display × Bool} (hp : DrawsSet p a b) (hq : DrawsSet q b c)
    (hd : ∀ x y, p x y = true → q x y = false) : DrawsSet (fun x y => p x y || q x y) a c where
  pixel x y hx hy := by
    have := hd x y
    rw [hq.pixel x y hx hy, hp.pixel x y hx hy, Option.map_map]
    congr 1
    funext lit
    cases h : p x y <;> cases h' : q x y <;> simp_all
  hit := by
    rw [hq.hit, hp.hit]
    constructor
    · rintro ((h | ⟨x, y, hx, hy, ho, hl⟩) | ⟨x, y, hx, hy, ho, hl⟩)
      · exact Or.inl h
      · exact Or.inr ⟨x, y, hx, hy, by simp [ho], hl⟩
      · refine Or.inr ⟨x, y, hx, hy, by simp [ho], ?_⟩
        have hpf : p x y = false := by
          cases h : p x y with
          | false => rfl
          | true => have := hd x y h; simp_all
        have := hp.pixel x y hx hy
        rw [hl, hpf] at this
        cases hb : a.1.pixel x y <;> simp_all
    · rintro (h | ⟨x, y, hx, hy, ho, hl⟩)
      · exact Or.inl (Or.inl h)
      · rcases Bool.or_eq_true_iff.mp ho with h | h
        · exact Or.inl (Or.inr ⟨x, y, hx, hy, h, hl⟩)
        · refine Or.inr ⟨x, y, hx, hy, h, ?_⟩
          have hpf : p x y = false := by
            cases h' : p x y with
            | false => rfl
            | true => have := hd x y h'; simp_all
          rw [hp.pixel x y hx hy, hl, hpf]
          rfl

theorem DrawsSet.congr {p q : Nat → Nat → Bool} {a b : Display × Bool} (h : DrawsSet p a b)
    (e : ∀ x y, x < 64 → y < 32 → p x y = q x y) : DrawsSet q a b where
  pixel x y hx hy := by rw [← e x y hx hy]; exact h.pixel x y hx hy
  hit := by
    rw [h.hit]
    constructor
    · rintro (h | ⟨x, y, hx, hy, ho, hl⟩)
      · exact Or.inl h
      · exact Or.inr ⟨x, y, hx, hy, by rw [← e x y hx hy]; exact ho, hl⟩
    · rintro (h | ⟨x, y, hx, hy, ho, hl⟩)
      · exact Or.inl h
      · exact Or.inr ⟨x, y, hx, hy, by rw [e x y hx hy]; exact ho, hl⟩

/-- One 1 bit draws the one pixel it names, or nothing when it is off the grid. -/
theorem plotBit_draws (acc : Display × Bool) (px py : Nat) :
    DrawsSet (fun x y => decide (x = px ∧ y = py)) acc (plotBit acc px py) := by
  unfold plotBit
  by_cases hv : px < 64 ∧ py < 32
  · obtain ⟨hx, hy⟩ := hv
    rw [Display.pixel_of_valid _ _ _ hx hy]
    simp only
    constructor
    · intro x y _ _
      by_cases he : x = px ∧ y = py
      · obtain ⟨rfl, rfl⟩ := he
        rw [Display.pixel_setPixel_self _ _ _ _ hx hy, Display.pixel_of_valid _ _ _ hx hy]
        simp
      · rw [Display.pixel_setPixel_of_ne _ _ _ _ _ _ he, Display.pixel_of_valid _ _ _ (by assumption) (by assumption)]
        simp [he]
    · simp only [Bool.or_eq_true_iff, decide_eq_true_eq]
      constructor
      · rintro (h | h)
        · exact Or.inl h
        · exact Or.inr ⟨px, py, hx, hy, ⟨rfl, rfl⟩, by rw [Display.pixel_of_valid _ _ _ hx hy, h]⟩
      · rintro (h | ⟨x, y, _, _, ⟨rfl, rfl⟩, h⟩)
        · exact Or.inl h
        · rw [Display.pixel_of_valid _ _ _ hx hy] at h
          exact Or.inr (Option.some.inj h)
  · rw [Display.pixel_of_invalid _ _ _ hv]
    refine (DrawsSet.refl acc).congr fun x y hx hy => ?_
    symm
    simp only [decide_eq_false_iff_not]
    rintro ⟨rfl, rfl⟩
    exact hv ⟨hx, hy⟩

/-- The first `n` columns of a sprite row. -/
theorem plotCols_draws (x0 py : Nat) (b : Byte) (n : Nat) (acc : Display × Bool) :
    DrawsSet (fun x y => decide (y = py ∧ x0 ≤ x ∧ x < x0 + n) && b.getLsbD (7 - (x - x0))) acc
      ((List.range n).foldl (fun acc col => if b.getLsbD (7 - col) then plotBit acc (x0 + col) py else acc) acc) := by
  induction n with
  | zero =>
    refine (DrawsSet.refl acc).congr fun x y _ _ => ?_
    symm
    rw [Bool.and_eq_false_iff]
    left
    simp only [decide_eq_false_iff_not]
    omega
  | succ n ih =>
    rw [List.range_succ, List.foldl_append]
    simp only [List.foldl_cons, List.foldl_nil]
    split
    · rename_i hb
      refine (ih.trans (plotBit_draws _ (x0 + n) py) fun x y h => ?_).congr fun x y _ _ => ?_
      · rw [Bool.and_eq_true_iff, decide_eq_true_eq] at h
        simp only [decide_eq_false_iff_not]
        omega
      · by_cases hx : x = x0 + n
        · subst hx
          have e : x0 + n - x0 = n := by omega
          simp [e, hb]
        · by_cases hlt : x < x0 + n
          · have : x < x0 + (n + 1) := by omega
            simp [hx, hlt, this]
          · have : ¬x < x0 + (n + 1) := by omega
            simp [hx, hlt, this]
    · rename_i hb
      refine ih.congr fun x y _ _ => ?_
      by_cases hx : x = x0 + n
      · subst hx
        have e : x0 + n - x0 = n := by omega
        simp [e, hb]
      · by_cases hlt : x < x0 + n
        · have : x < x0 + (n + 1) := by omega
          simp [hlt, this]
        · have : ¬x < x0 + (n + 1) := by omega
          simp [hlt, this]

/-- One sprite row. -/
theorem plotRow_draws (x0 py : Nat) (b : Byte) (acc : Display × Bool) :
    DrawsSet (fun x y => decide (y = py ∧ x0 ≤ x ∧ x < x0 + 8) && b.getLsbD (7 - (x - x0))) acc (plotRow x0 py b acc) :=
  plotCols_draws x0 py b 8 acc

/-- A whole sprite: the pixel `(x, y)` is in its set when row `y - y0` exists and has its bit `7 - (x - x0)` set. -/
theorem plotRows_draws (x0 : Nat) (rows : List Byte) :
    ∀ (y0 : Nat) (acc : Display × Bool),
      DrawsSet
        (fun x y => decide (x0 ≤ x ∧ x < x0 + 8 ∧ y0 ≤ y ∧ y < y0 + rows.length) &&
          ((rows[y - y0]?).getD 0).getLsbD (7 - (x - x0)))
        acc (plotRows x0 y0 rows acc) := by
  induction rows with
  | nil =>
    intro y0 acc
    refine (DrawsSet.refl acc).congr fun x y _ _ => ?_
    symm
    rw [Bool.and_eq_false_iff]
    left
    simp only [decide_eq_false_iff_not, List.length_nil]
    omega
  | cons b rows ih =>
    intro y0 acc
    refine ((plotRow_draws x0 y0 b acc).trans (ih (y0 + 1) _) fun x y h => ?_).congr fun x y _ _ => ?_
    · rw [Bool.and_eq_true_iff, decide_eq_true_eq] at h
      rw [Bool.and_eq_false_iff]
      left
      simp only [decide_eq_false_iff_not]
      omega
    · by_cases hy : y = y0
      · subst hy
        simp
      · by_cases hlt : y0 ≤ y
        · have e : y - y0 = y - (y0 + 1) + 1 := by omega
          have h1 : y0 + 1 ≤ y := by omega
          have h2 : y < y0 + 1 + rows.length ↔ y < y0 + (rows.length + 1) := by omega
          simp [hy, hlt, e, h1, h2]
        · have h1 : ¬y0 + 1 ≤ y := by omega
          simp [hy, hlt, h1]

end Sys2Proof.Machine
end

