-- ==== Sys2Proof/Laws/Encode.lean ====
section
/-! SUPPORT. An instruction's word as a number: the opcode's fixed bits plus each operand at its place (30_encoding.md R61 to R64). -/

namespace Sys2Proof.Laws

/-- What a codec places: the field's low bits, moved to the codec's offset. -/
theorem place_toNat (c : Codec) (f : Word) (hw : c.width + c.offset ≤ 16) :
    (c.place f).toNat = f.toNat % 2 ^ c.width * 2 ^ c.offset := by
  have hm : 2 ^ c.width - 1 < 2 ^ 16 := by
    have := Nat.pow_le_pow_right (n := 2) (by decide) (show c.width ≤ 16 by omega)
    have := Nat.two_pow_pos c.width
    omega
  have hlt : f.toNat % 2 ^ c.width * 2 ^ c.offset < 2 ^ 16 := by
    have h1 : f.toNat % 2 ^ c.width < 2 ^ c.width := Nat.mod_lt _ (Nat.two_pow_pos _)
    calc f.toNat % 2 ^ c.width * 2 ^ c.offset < 2 ^ c.width * 2 ^ c.offset :=
          Nat.mul_lt_mul_of_pos_right h1 (Nat.two_pow_pos _)
      _ = 2 ^ (c.width + c.offset) := (Nat.pow_add ..).symm
      _ ≤ 2 ^ 16 := Nat.pow_le_pow_right (by decide) hw
  rw [Codec.place, Codec.mask, BitVec.toNat_shiftLeft, BitVec.toNat_and, BitVec.toNat_ofNat, Nat.mod_eq_of_lt hm,
    Nat.and_two_pow_sub_one_eq_mod, Nat.shiftLeft_eq, Nat.mod_eq_of_lt hlt]

/-- Two words that share no 1 bit: their OR is their sum. -/
theorem or_toNat (a b : Word) (h : a &&& b = 0#16) : (a ||| b).toNat = a.toNat + b.toNat := by
  rw [← BitVec.add_eq_or_of_and_eq_zero a b h, BitVec.toNat_add_of_and_eq_zero h]

/-- Two fields whose codecs share no bit. -/
theorem place_and_place (c d : Codec) (f g : Word) (h : (c.mask <<< c.offset) &&& (d.mask <<< d.offset) = 0#16) :
    c.place f &&& d.place g = 0#16 := by
  have hc : c.place f = c.place f &&& (c.mask <<< c.offset) := by
    rw [Codec.place, ← BitVec.shiftLeft_and_distrib, BitVec.and_assoc, BitVec.and_self]
  have hd : d.place g = (d.mask <<< d.offset) &&& d.place g := by
    rw [Codec.place, ← BitVec.shiftLeft_and_distrib, BitVec.and_comm g, ← BitVec.and_assoc, BitVec.and_self]
  rw [hc, hd, BitVec.and_assoc, ← BitVec.and_assoc (c.mask <<< c.offset), h, BitVec.zero_and, BitVec.and_zero]

/-- Fixed bits that lie outside a codec's field. -/
theorem fixed_and_place (m : Word) (c : Codec) (f : Word) (h : m &&& (c.mask <<< c.offset) = 0#16) : m &&& c.place f = 0#16 := by
  rw [Codec.place, BitVec.shiftLeft_and_distrib, BitVec.and_comm (f <<< c.offset), ← BitVec.and_assoc, h, BitVec.zero_and]

theorem GroupA_encode_toNat (o : GroupA) : o.encode.toNat = o.nnn.toNat := by
  have := o.nnn.isLt
  rw [GroupA.encode, place_toNat _ _ (by decide)]
  simp only [addressCodec, BitVec.toNat_setWidth]
  omega

theorem GroupV_encode_toNat (o : GroupV) : o.encode.toNat = 0x100 * o.x.toNat := by
  have := o.x.isLt
  rw [GroupV.encode, place_toNat _ _ (by decide)]
  simp only [vxCodec, BitVec.toNat_setWidth]
  omega

theorem GroupVB_encode_toNat (o : GroupVB) : o.encode.toNat = 0x100 * o.x.toNat + o.kk.toNat := by
  have := o.x.isLt
  have := o.kk.isLt
  rw [GroupVB.encode, or_toNat _ _ (place_and_place _ _ _ _ (by decide)), place_toNat _ _ (by decide), place_toNat _ _ (by decide)]
  simp only [vxCodec, byteCodec, BitVec.toNat_setWidth]
  omega

theorem GroupVV_encode_toNat (o : GroupVV) : o.encode.toNat = 0x100 * o.x.toNat + 0x10 * o.y.toNat := by
  have := o.x.isLt
  have := o.y.isLt
  rw [GroupVV.encode, or_toNat _ _ (place_and_place _ _ _ _ (by decide)), place_toNat _ _ (by decide), place_toNat _ _ (by decide)]
  simp only [vxCodec, vyCodec, BitVec.toNat_setWidth]
  omega

/-- The word as a sum, from fixed bits that miss the operand bits. -/
theorem encode_toNat (i : Instr) (h : i.matchValue &&& i.operandBits = 0#16) :
    (encode i).toNat = i.matchValue.toNat + i.operandBits.toNat := or_toNat _ _ h

theorem encode_toNat_A (m : Word) (i : Instr) (o : GroupA) (hm : i.matchValue = m) (hi : i.operandBits = o.encode)
    (h : m &&& 0x0FFF = 0#16) :
    (encode i).toNat = m.toNat + o.nnn.toNat := by
  rw [encode_toNat i (by rw [hi, hm]; exact fixed_and_place _ _ _ h), hm, hi, GroupA_encode_toNat]

theorem encode_toNat_V (m : Word) (i : Instr) (o : GroupV) (hm : i.matchValue = m) (hi : i.operandBits = o.encode)
    (h : m &&& 0x0F00 = 0#16) :
    (encode i).toNat = m.toNat + 0x100 * o.x.toNat := by
  rw [encode_toNat i (by rw [hi, hm]; exact fixed_and_place _ _ _ h), hm, hi, GroupV_encode_toNat]

theorem encode_toNat_VB (m : Word) (i : Instr) (o : GroupVB) (hm : i.matchValue = m) (hi : i.operandBits = o.encode)
    (hx : m &&& 0x0F00 = 0#16)
    (hk : m &&& 0x00FF = 0#16) : (encode i).toNat = m.toNat + 0x100 * o.x.toNat + o.kk.toNat := by
  rw [encode_toNat i ?_, hm, hi, GroupVB_encode_toNat, Nat.add_assoc]
  rw [hm, hi, GroupVB.encode, BitVec.and_or_distrib_left, fixed_and_place _ _ _ hx, fixed_and_place _ _ _ hk, BitVec.or_zero]

theorem encode_toNat_VV (m : Word) (i : Instr) (o : GroupVV) (hm : i.matchValue = m) (hi : i.operandBits = o.encode)
    (hx : m &&& 0x0F00 = 0#16)
    (hy : m &&& 0x00F0 = 0#16) : (encode i).toNat = m.toNat + 0x100 * o.x.toNat + 0x10 * o.y.toNat := by
  rw [encode_toNat i ?_, hm, hi, GroupVV_encode_toNat, Nat.add_assoc]
  rw [hm, hi, GroupVV.encode, BitVec.and_or_distrib_left, fixed_and_place _ _ _ hx, fixed_and_place _ _ _ hy, BitVec.or_zero]

end Sys2Proof.Laws
end

