-- ==== Sys2Proof/Laws/Memory.lean ====
section
/-! SUPPORT. The laws of memory: a read after a write to the same address gives the value written, a write leaves every other address
alone, every operation keeps the canonical form; then the same for runs of bytes. The read laws hold of every list, canonical
or not. -/

namespace Sys2Proof.Machine

/-! ## One byte -/

theorem Memory.lookup_of_not_mem (m : Memory) (a : Nat) (h : ∀ c ∈ m, c.1 ≠ a) : m.lookup a = Memory.unlisted a := by
  induction m with
  | nil => rfl
  | cons c m ih =>
    obtain ⟨b, w⟩ := c
    have hb : b ≠ a := h (b, w) (by simp)
    simp only [Memory.lookup, if_neg hb]
    exact ih fun c hc => h c (by simp [hc])

theorem Memory.lookup_filter (m : Memory) (a b : Nat) (h : b ≠ a) :
    Memory.lookup (List.filter (fun c => c.1 != a) m) b = m.lookup b := by
  induction m with
  | nil => rfl
  | cons c m ih =>
    obtain ⟨d, w⟩ := c
    by_cases hd : d = a
    · subst hd
      simp only [List.filter_cons, bne_self_eq_false, Bool.false_eq_true, if_false, Memory.lookup, if_neg (Ne.symm h)]
      exact ih
    · simp only [List.filter_cons, bne_iff_ne, ne_eq, hd, not_false_eq_true, if_true, Memory.lookup, ih]

theorem Memory.lookup_insertCell_self (m : Memory) (a : Nat) (v : Byte) (h : ∀ c ∈ m, c.1 ≠ a) :
    Memory.lookup (Memory.insertCell m a v) a = v := by
  induction m with
  | nil => simp [Memory.insertCell, Memory.lookup]
  | cons c m ih =>
    obtain ⟨b, w⟩ := c
    have hb : b ≠ a := h (b, w) (by simp)
    unfold Memory.insertCell
    split
    · simp [Memory.lookup]
    · simp only [Memory.lookup, if_neg hb]
      exact ih fun c hc => h c (by simp [hc])

theorem Memory.lookup_insertCell_of_ne (m : Memory) (a b : Nat) (v : Byte) (h : b ≠ a) :
    Memory.lookup (Memory.insertCell m a v) b = m.lookup b := by
  induction m with
  | nil => simp [Memory.insertCell, Memory.lookup, Ne.symm h]
  | cons c m ih =>
    obtain ⟨d, w⟩ := c
    unfold Memory.insertCell
    split
    · simp [Memory.lookup, Ne.symm h]
    · simp only [Memory.lookup, ih]

theorem Memory.filter_ne (m : Memory) (a : Nat) : ∀ c ∈ List.filter (fun c : Host.Cell => c.1 != a) m, c.1 ≠ a := by
  intro c hc
  simpa using (List.mem_filter.mp hc).2

/-- A read after a write to the same address gives the value written. -/
@[simp] theorem Memory.lookup_store_self (m : Memory) (a : Nat) (v : Byte) : (m.store a v).lookup a = v := by
  unfold Memory.store
  simp only
  split
  · rename_i h
    rw [Memory.lookup_of_not_mem _ _ (Memory.filter_ne m a), h]
  · exact Memory.lookup_insertCell_self _ _ _ (Memory.filter_ne m a)

/-- A write leaves every other address alone. -/
theorem Memory.lookup_store_of_ne (m : Memory) (a b : Nat) (v : Byte) (h : b ≠ a) : (m.store a v).lookup b = m.lookup b := by
  unfold Memory.store
  simp only
  split
  · exact Memory.lookup_filter m a b h
  · rw [Memory.lookup_insertCell_of_ne _ _ _ _ h, Memory.lookup_filter m a b h]

/-! ## The canonical form -/

/-- Reset memory has the canonical form. -/
theorem Memory.wf_reset : State.reset.mem.wf := ⟨List.Pairwise.nil, by intro c hc; cases hc⟩

theorem Memory.mem_insertCell (m : Memory) (a : Nat) (v : Byte) (c : Host.Cell) :
    c ∈ Memory.insertCell m a v ↔ c = (a, v) ∨ c ∈ m := by
  induction m with
  | nil => simp [Memory.insertCell]
  | cons d m ih =>
    obtain ⟨b, w⟩ := d
    unfold Memory.insertCell
    split
    · simp
    · simp only [List.mem_cons, ih]
      tauto

theorem Memory.pairwise_insertCell (m : Memory) (a : Nat) (v : Byte)
    (hm : List.Pairwise (fun c d : Host.Cell => c.1 < d.1) m) (ha : ∀ c ∈ m, c.1 ≠ a) :
    List.Pairwise (fun c d : Host.Cell => c.1 < d.1) (Memory.insertCell m a v) := by
  induction m with
  | nil => simp [Memory.insertCell]
  | cons d m ih =>
    obtain ⟨b, w⟩ := d
    obtain ⟨hb, hm'⟩ := List.pairwise_cons.mp hm
    have hba : b ≠ a := ha (b, w) (by simp)
    unfold Memory.insertCell
    split
    · rename_i hlt
      refine List.pairwise_cons.mpr ⟨fun c hc => ?_, hm⟩
      rcases List.mem_cons.mp hc with rfl | hc
      · exact hlt
      · exact Nat.lt_trans hlt (hb c hc)
    · rename_i hlt
      refine List.pairwise_cons.mpr ⟨fun c hc => ?_, ih hm' fun c hc => ha c (by simp [hc])⟩
      rcases (Memory.mem_insertCell m a v c).mp hc with rfl | hc
      · show b < a
        omega
      · exact hb c hc

/-- Storing a byte inside memory keeps the canonical form. -/
theorem Memory.wf_store (m : Memory) (a : Nat) (v : Byte) (hm : m.wf) (ha : a < 4096) : (m.store a v).wf := by
  have hp : List.Pairwise (fun c d : Host.Cell => c.1 < d.1) (List.filter (fun c => c.1 != a) m) := hm.1.filter _
  have hc : ∀ c ∈ List.filter (fun c : Host.Cell => c.1 != a) m, c.1 < 4096 ∧ c.2 ≠ Memory.unlisted c.1 :=
    fun c h => hm.2 c (List.mem_filter.mp h).1
  unfold Memory.store
  simp only
  split
  · exact ⟨hp, hc⟩
  · rename_i hv
    refine ⟨Memory.pairwise_insertCell _ _ _ hp (Memory.filter_ne m a), fun c h => ?_⟩
    rcases (Memory.mem_insertCell _ a v c).mp h with rfl | h
    · exact ⟨ha, hv⟩
    · exact hc c h

/-- Every write keeps the canonical form. -/
theorem Memory.wf_write (m m' : Memory) (a : Nat) (v : Byte) (hm : m.wf) (h : m.write a v = some m') : m'.wf := by
  unfold Memory.write at h
  split at h
  · rename_i ha
    obtain rfl := Option.some.inj h
    exact Memory.wf_store m a v hm (by omega)
  · cases h

/-- Every write of a run of bytes keeps the canonical form. -/
theorem Memory.wf_writeBytes (bs : List Byte) :
    ∀ (m m' : Memory) (a : Nat), m.wf → m.writeBytes a bs = some m' → m'.wf := by
  induction bs with
  | nil =>
    intro m m' a hm h
    obtain rfl := Option.some.inj h
    exact hm
  | cons b bs ih =>
    intro m m' a hm h
    simp only [Memory.writeBytes] at h
    split at h
    · rename_i m1 h1
      exact ih m1 m' (a + 1) (Memory.wf_write m m1 a b hm h1) h
    · cases h

/-! ## Checked reads and writes -/

theorem Memory.read_of_lt (m : Memory) (a : Nat) (h : a < 4096) : m.read a = some (m.lookup a) := by
  rw [Memory.read, if_pos (by omega)]

theorem Memory.read_of_ge (m : Memory) (a : Nat) (h : 4096 ≤ a) : m.read a = none := by
  rw [Memory.read, if_neg (by omega)]

/-- A run of reads inside memory gives the bytes in order. -/
theorem Memory.readBytes_eq (m : Memory) (n : Nat) :
    ∀ a, InBounds a n → m.readBytes a n = some ((List.range n).map fun k => m.lookup (a + k)) := by
  induction n with
  | zero => intro a _; rfl
  | succ n ih =>
    intro a h
    rw [Memory.readBytes, Memory.read_of_lt m a (by omega), ih (a + 1) (by omega)]
    simp only [List.range_succ_eq_map, List.map_cons, List.map_map, Nat.add_zero, Option.some.injEq, List.cons.injEq, true_and]
    refine List.map_congr_left fun k _ => ?_
    simp only [Function.comp]
    congr 1
    omega

/-- A run of writes inside memory succeeds; each byte of the run reads back, and every other address reads as before. -/
theorem Memory.writeBytes_spec (bs : List Byte) :
    ∀ (m : Memory) (a : Nat), InBounds a bs.length →
      ∃ m', m.writeBytes a bs = some m' ∧ (∀ k (hk : k < bs.length), m'.lookup (a + k) = bs[k]) ∧
        ∀ b, b < a ∨ a + bs.length ≤ b → m'.lookup b = m.lookup b := by
  induction bs with
  | nil => intro m a _; exact ⟨m, rfl, fun k hk => absurd hk (by simp), fun _ _ => rfl⟩
  | cons v bs ih =>
    intro m a h
    simp only [List.length_cons] at h
    obtain ⟨m', hw, hin, hout⟩ := ih (m.store a v) (a + 1) (by omega)
    refine ⟨m', ?_, ?_, ?_⟩
    · rw [Memory.writeBytes, Memory.write, if_pos (by omega)]
      exact hw
    · intro k hk
      cases k with
      | zero =>
        have := hout a (Or.inl (by omega))
        simpa using this
      | succ k =>
        have := hin k (by simpa using hk)
        rw [show a + (k + 1) = a + 1 + k by omega]
        simpa using this
    · intro b hb
      simp only [List.length_cons] at hb
      rw [hout b (by omega), Memory.lookup_store_of_ne _ _ _ _ (by omega)]

/-- Reads of one address agree when the bytes held for it do. -/
theorem Memory.read_congr (m m' : Memory) (a : Nat) (h : m'.lookup a = m.lookup a) : m'.read a = m.read a := by
  simp only [Memory.read, h]

end Sys2Proof.Machine
end

