-- ==== Sys2Proof/Laws/Ops.lean ====
section
/-! SUPPORT. One lemma per shared operation of Machine/Ops.lean that says everything it can do: stack, bytes at `I`, timers, fetch. -/

namespace Sys2Proof.Machine

/-! ## Stack (10_state.md R17) -/

/-- A push on a stack that is not full. -/
theorem State.push_of_lt (s : State) (w : Word) (h : s.sp.val < 16) :
    s.push w = some { s with stack := s.stack.set s.sp.val w h, sp := ⟨s.sp.val + 1, by omega⟩ } := by
  rw [State.push, dif_pos h]

/-- A push on a full stack. -/
theorem State.push_of_full (s : State) (w : Word) (h : s.sp.val = 16) : s.push w = none := by
  rw [State.push, dif_neg (by omega)]

/-- A pop from a stack that is not empty. -/
theorem State.pop_of_pos (s : State) (h : 0 < s.sp.val) :
    s.pop = some (s.stack[s.sp.val - 1]'(by omega), { s with sp := ⟨s.sp.val - 1, by omega⟩ }) := by
  rw [State.pop, dif_pos h]

/-- A pop from an empty stack. -/
theorem State.pop_of_empty (s : State) (h : s.sp.val = 0) : s.pop = none := by
  rw [State.pop, dif_neg (by omega)]

/-! ## Bytes at `I` (43_index_memory.md R146) -/

/-- Reading `n` bytes at `I` gives them in order, or raises `InvalidAddress`; the model's own fault never comes up. -/
theorem withBytesAtI_eq (n : Nat) (s : State) (use : List Byte → State) :
    withBytesAtI n s use =
      if InBounds s.i.toNat n then .next (use ((List.range n).map fun k => s.mem.lookup (s.i.toNat + k)))
      else raise .invalidAddress s := by
  unfold withBytesAtI
  split
  · rename_i h
    rw [Memory.readBytes_eq _ _ _ h]
  · rfl

/-- Writing bytes at `I` outside memory raises `InvalidAddress`. -/
theorem storeBytesAtI_of_out (bs : List Byte) (s : State) (h : ¬InBounds s.i.toNat bs.length) :
    storeBytesAtI bs s = raise .invalidAddress s := if_neg h

/-- Writing bytes at `I` inside memory goes on to the next instruction with exactly those bytes changed; memory keeps its
canonical form. -/
theorem storeBytesAtI_of_in (bs : List Byte) (s : State) (h : InBounds s.i.toNat bs.length) :
    ∃ m, storeBytesAtI bs s = .next (State.advance { s with mem := m }) ∧
      (∀ k (hk : k < bs.length), m.lookup (s.i.toNat + k) = bs[k]) ∧
      (∀ b, b < s.i.toNat ∨ s.i.toNat + bs.length ≤ b → m.lookup b = s.mem.lookup b) ∧ (s.mem.wf → m.wf) := by
  obtain ⟨m, hm, hin, hout⟩ := Memory.writeBytes_spec bs s.mem s.i.toNat h
  refine ⟨m, ?_, hin, hout, fun hw => Memory.wf_writeBytes bs s.mem m _ hw hm⟩
  rw [storeBytesAtI, if_pos h, hm]

/-! ## Fetch (40_cycle.md R92) -/

theorem State.fetch_of_in (s : State) (h : s.pc.toNat + 2 ≤ 4096) :
    s.fetch = some (joinBytes (s.mem.lookup s.pc.toNat) (s.mem.lookup (s.pc.toNat + 1))) := by
  rw [State.fetch, if_pos h, Memory.readWord, Memory.read_of_lt _ _ (by omega), Memory.read_of_lt _ _ (by omega)]

theorem State.fetch_of_out (s : State) (h : ¬s.pc.toNat + 2 ≤ 4096) : s.fetch = none := if_neg h

/-! ## Fault types (60_exceptions.md R170) -/

/-- The codes tell the six fault types apart. -/
@[simp] theorem FaultType.code_inj (t u : FaultType) : t.code = u.code ↔ t = u := by
  cases t <;> cases u <;> decide

/-! ## Timers (60_exceptions.md R181) -/

/-- The test of R181 without a division: `master_clock_rate < 61 * acc`. -/
theorem timerDue_iff (rate : BitVec 32) (acc : Nat) (h : 0 < acc) : timerDue rate acc = true ↔ rate.toNat < 61 * acc := by
  rw [timerDue, decide_eq_true_eq, ← Nat.lt_succ_iff, Nat.div_lt_iff_lt_mul h]

theorem nextAcc_eq (rate : BitVec 32) (acc : Nat) :
    nextAcc rate acc = if rate.toNat < 61 * (acc + 1) then 0 else acc + 1 := by
  simp only [nextAcc, timerDue_iff rate (acc + 1) (Nat.succ_pos acc)]

theorem nextTimer_toNat (rate : BitVec 32) (acc : Nat) (t : Byte) :
    (nextTimer rate acc t).toNat = if rate.toNat < 61 * (acc + 1) then t.toNat - 1 else t.toNat := by
  have ht := t.isLt
  simp only [nextTimer, timerDue_iff rate (acc + 1) (Nat.succ_pos acc)]
  by_cases hd : rate.toNat < 61 * (acc + 1)
  · by_cases h0 : 0 < t.toNat
    · have h1 : (1 : Byte).toNat = 1 := rfl
      simp only [hd, h0, and_self, if_true, BitVec.toNat_sub, h1]
      omega
    · simp only [hd, h0, false_and, if_false, if_true]
      omega
  · simp only [hd, and_false, if_false]

/-- An accumulator never passes the test of R181. -/
theorem nextAcc_bounded (rate : BitVec 32) (acc : Nat) : 61 * nextAcc rate acc ≤ rate.toNat := by
  rw [nextAcc_eq]
  split <;> omega

/-! ## The end of a cycle (40_cycle.md R95, R96) -/

theorem finishCycle_next (t : State) : finishCycle (.next t) = .next (if t.fault.valid then t else t.timerTick) := rfl

/-- A cycle that ends in a next state had a routine that ended in one. -/
theorem finishCycle_eq_next (r : Result) (u : State) (h : finishCycle r = .next u) :
    ∃ t, r = .next t ∧ u = if t.fault.valid then t else t.timerTick := by
  cases r with
  | next t => exact ⟨t, rfl, (Host.Outcome.next.inj h).symm⟩
  | fault f => cases h
  | refused r => cases h

end Sys2Proof.Machine
end

