-- ==== Sys2Proof/Laws/PerInstr.lean ====
section
/-! SUPPORT. The family FixedBits, one lemma per constructor of Instr: an opcode's operand bits never touch its fixed bits
(30_encoding.md R64). -/

namespace Sys2Proof.Laws

/-- A codec's field lies outside a mask that its own bits miss. -/
theorem place_and_mask (c : Codec) (f m : Word) (h : (c.mask <<< c.offset) &&& m = 0#16) : c.place f &&& m = 0#16 := by
  rw [Codec.place, BitVec.shiftLeft_and_distrib, BitVec.and_assoc, h, BitVec.and_zero]

theorem or_and_distrib (a b m : Word) : (a ||| b) &&& m = (a &&& m) ||| (b &&& m) := by
  ext k
  simp only [BitVec.getElem_and, BitVec.getElem_or, Bool.and_or_distrib_right]

theorem GroupA_encode_and_mask (o : GroupA) : o.encode &&& levelMask4 = 0#16 := place_and_mask _ _ _ (by decide)

theorem GroupV_encode_and_mask (o : GroupV) : o.encode &&& levelMask2 = 0#16 := place_and_mask _ _ _ (by decide)

theorem GroupVB_encode_and_mask (o : GroupVB) : o.encode &&& levelMask4 = 0#16 := by
  rw [GroupVB.encode, or_and_distrib, place_and_mask _ _ _ (by decide), place_and_mask _ _ _ (by decide), BitVec.or_zero]

theorem GroupVV_encode_and_mask (o : GroupVV) : o.encode &&& levelMask3 = 0#16 := by
  rw [GroupVV.encode, or_and_distrib, place_and_mask _ _ _ (by decide), place_and_mask _ _ _ (by decide), BitVec.or_zero]

theorem GroupVVN_encode_and_mask (o : GroupVVN) : o.encode &&& levelMask4 = 0#16 := by
  rw [GroupVVN.encode, or_and_distrib, or_and_distrib, place_and_mask _ _ _ (by decide), place_and_mask _ _ _ (by decide),
    place_and_mask _ _ _ (by decide), BitVec.or_zero, BitVec.or_zero]

/-- From operand bits that miss the mask, and a match value that the mask keeps. -/
theorem fixed_bits_of (i : Instr) (ho : i.operandBits &&& i.mask = 0#16) (hm : i.matchValue &&& i.mask = i.matchValue) :
    encode i &&& i.mask = i.matchValue := by
  rw [encode, or_and_distrib, ho, hm, BitVec.or_zero]

/-- Masked by its level's mask, an instruction's word is its match value (R64). -/
def FixedBits.Statement (i : Instr) : Prop := encode i &&& i.mask = i.matchValue

theorem FixedBits.cls : FixedBits.Statement .cls := by
  show encode .cls &&& Instr.mask .cls = _
  decide

theorem FixedBits.ret : FixedBits.Statement .ret := by
  show encode .ret &&& Instr.mask .ret = _
  decide

theorem FixedBits.skpV (o : GroupV) : FixedBits.Statement (.skpV o) :=
  fixed_bits_of _ (GroupV_encode_and_mask o) (by simp only [Instr.matchValue, Instr.mask]; decide)

theorem FixedBits.sknpV (o : GroupV) : FixedBits.Statement (.sknpV o) :=
  fixed_bits_of _ (GroupV_encode_and_mask o) (by simp only [Instr.matchValue, Instr.mask]; decide)

theorem FixedBits.movVDT (o : GroupV) : FixedBits.Statement (.movVDT o) :=
  fixed_bits_of _ (GroupV_encode_and_mask o) (by simp only [Instr.matchValue, Instr.mask]; decide)

theorem FixedBits.wkpV (o : GroupV) : FixedBits.Statement (.wkpV o) :=
  fixed_bits_of _ (GroupV_encode_and_mask o) (by simp only [Instr.matchValue, Instr.mask]; decide)

theorem FixedBits.movDTV (o : GroupV) : FixedBits.Statement (.movDTV o) :=
  fixed_bits_of _ (GroupV_encode_and_mask o) (by simp only [Instr.matchValue, Instr.mask]; decide)

theorem FixedBits.movSTV (o : GroupV) : FixedBits.Statement (.movSTV o) :=
  fixed_bits_of _ (GroupV_encode_and_mask o) (by simp only [Instr.matchValue, Instr.mask]; decide)

theorem FixedBits.addIV (o : GroupV) : FixedBits.Statement (.addIV o) :=
  fixed_bits_of _ (GroupV_encode_and_mask o) (by simp only [Instr.matchValue, Instr.mask]; decide)

theorem FixedBits.fontV (o : GroupV) : FixedBits.Statement (.fontV o) :=
  fixed_bits_of _ (GroupV_encode_and_mask o) (by simp only [Instr.matchValue, Instr.mask]; decide)

theorem FixedBits.bcdV (o : GroupV) : FixedBits.Statement (.bcdV o) :=
  fixed_bits_of _ (GroupV_encode_and_mask o) (by simp only [Instr.matchValue, Instr.mask]; decide)

theorem FixedBits.movMV (o : GroupV) : FixedBits.Statement (.movMV o) :=
  fixed_bits_of _ (GroupV_encode_and_mask o) (by simp only [Instr.matchValue, Instr.mask]; decide)

theorem FixedBits.movVM (o : GroupV) : FixedBits.Statement (.movVM o) :=
  fixed_bits_of _ (GroupV_encode_and_mask o) (by simp only [Instr.matchValue, Instr.mask]; decide)

theorem FixedBits.seqVV (o : GroupVV) : FixedBits.Statement (.seqVV o) :=
  fixed_bits_of _ (GroupVV_encode_and_mask o) (by simp only [Instr.matchValue, Instr.mask]; decide)

theorem FixedBits.movVV (o : GroupVV) : FixedBits.Statement (.movVV o) :=
  fixed_bits_of _ (GroupVV_encode_and_mask o) (by simp only [Instr.matchValue, Instr.mask]; decide)

theorem FixedBits.orVV (o : GroupVV) : FixedBits.Statement (.orVV o) :=
  fixed_bits_of _ (GroupVV_encode_and_mask o) (by simp only [Instr.matchValue, Instr.mask]; decide)

theorem FixedBits.andVV (o : GroupVV) : FixedBits.Statement (.andVV o) :=
  fixed_bits_of _ (GroupVV_encode_and_mask o) (by simp only [Instr.matchValue, Instr.mask]; decide)

theorem FixedBits.xorVV (o : GroupVV) : FixedBits.Statement (.xorVV o) :=
  fixed_bits_of _ (GroupVV_encode_and_mask o) (by simp only [Instr.matchValue, Instr.mask]; decide)

theorem FixedBits.addVV (o : GroupVV) : FixedBits.Statement (.addVV o) :=
  fixed_bits_of _ (GroupVV_encode_and_mask o) (by simp only [Instr.matchValue, Instr.mask]; decide)

theorem FixedBits.subVV (o : GroupVV) : FixedBits.Statement (.subVV o) :=
  fixed_bits_of _ (GroupVV_encode_and_mask o) (by simp only [Instr.matchValue, Instr.mask]; decide)

theorem FixedBits.shrVV (o : GroupVV) : FixedBits.Statement (.shrVV o) :=
  fixed_bits_of _ (GroupVV_encode_and_mask o) (by simp only [Instr.matchValue, Instr.mask]; decide)

theorem FixedBits.subnVV (o : GroupVV) : FixedBits.Statement (.subnVV o) :=
  fixed_bits_of _ (GroupVV_encode_and_mask o) (by simp only [Instr.matchValue, Instr.mask]; decide)

theorem FixedBits.shlVV (o : GroupVV) : FixedBits.Statement (.shlVV o) :=
  fixed_bits_of _ (GroupVV_encode_and_mask o) (by simp only [Instr.matchValue, Instr.mask]; decide)

theorem FixedBits.sneVV (o : GroupVV) : FixedBits.Statement (.sneVV o) :=
  fixed_bits_of _ (GroupVV_encode_and_mask o) (by simp only [Instr.matchValue, Instr.mask]; decide)

theorem FixedBits.sysA (o : GroupA) : FixedBits.Statement (.sysA o) :=
  fixed_bits_of _ (GroupA_encode_and_mask o) (by simp only [Instr.matchValue, Instr.mask]; decide)

theorem FixedBits.jmpA (o : GroupA) : FixedBits.Statement (.jmpA o) :=
  fixed_bits_of _ (GroupA_encode_and_mask o) (by simp only [Instr.matchValue, Instr.mask]; decide)

theorem FixedBits.callA (o : GroupA) : FixedBits.Statement (.callA o) :=
  fixed_bits_of _ (GroupA_encode_and_mask o) (by simp only [Instr.matchValue, Instr.mask]; decide)

theorem FixedBits.seqVB (o : GroupVB) : FixedBits.Statement (.seqVB o) :=
  fixed_bits_of _ (GroupVB_encode_and_mask o) (by simp only [Instr.matchValue, Instr.mask]; decide)

theorem FixedBits.sneVB (o : GroupVB) : FixedBits.Statement (.sneVB o) :=
  fixed_bits_of _ (GroupVB_encode_and_mask o) (by simp only [Instr.matchValue, Instr.mask]; decide)

theorem FixedBits.movVB (o : GroupVB) : FixedBits.Statement (.movVB o) :=
  fixed_bits_of _ (GroupVB_encode_and_mask o) (by simp only [Instr.matchValue, Instr.mask]; decide)

theorem FixedBits.addVB (o : GroupVB) : FixedBits.Statement (.addVB o) :=
  fixed_bits_of _ (GroupVB_encode_and_mask o) (by simp only [Instr.matchValue, Instr.mask]; decide)

theorem FixedBits.movIA (o : GroupA) : FixedBits.Statement (.movIA o) :=
  fixed_bits_of _ (GroupA_encode_and_mask o) (by simp only [Instr.matchValue, Instr.mask]; decide)

theorem FixedBits.jmpV0A (o : GroupA) : FixedBits.Statement (.jmpV0A o) :=
  fixed_bits_of _ (GroupA_encode_and_mask o) (by simp only [Instr.matchValue, Instr.mask]; decide)

theorem FixedBits.rndVB (o : GroupVB) : FixedBits.Statement (.rndVB o) :=
  fixed_bits_of _ (GroupVB_encode_and_mask o) (by simp only [Instr.matchValue, Instr.mask]; decide)

theorem FixedBits.drwVVN (o : GroupVVN) : FixedBits.Statement (.drwVVN o) :=
  fixed_bits_of _ (GroupVVN_encode_and_mask o) (by simp only [Instr.matchValue, Instr.mask]; decide)

end Sys2Proof.Laws
end

