-- ==== Sys2Proof/Laws/Step.lean ====
section
/-! SUPPORT. What a machine cycle can do, said once (40_cycle.md R90), and the execute routines with more than one end, said once
each. Every property of `step` follows by cases from these. -/

namespace Sys2Proof.Machine

/-! ## The cycle -/

theorem step_of_stopped (s : State) (h : s.fault.valid = true) : step s = .next s := if_pos h

/-- What a running machine's cycle is: a fetch fault, a decode fault, or the decoded instruction's routine and the end of the
cycle. -/
theorem step_of_running (s : State) (h : s.fault.valid = false) :
    step s =
      if s.pc.toNat + 2 ≤ 4096 then
        match decodeWord (joinBytes (s.mem.lookup s.pc.toNat) (s.mem.lookup (s.pc.toNat + 1))) with
        | none => raise .invalidInstruction s
        | some i => finishCycle (exec i s)
      else raise .invalidAddress s := by
  rw [step, if_neg (by simp [h])]
  by_cases hp : s.pc.toNat + 2 ≤ 4096
  · rw [State.fetch_of_in s hp, if_pos hp] <;> rfl
  · rw [State.fetch_of_out s hp, if_neg hp]

/-- Everything a cycle that ends in a next state can have done. -/
theorem step_next_cases (s t : State) (h : step s = .next t) :
    (s.fault.valid = true ∧ t = s) ∨
    (s.fault.valid = false ∧ 4096 < s.pc.toNat + 2 ∧ t = s.latchFault .invalidAddress) ∨
    (s.fault.valid = false ∧ s.fetch.bind decodeWord = none ∧ s.pc.toNat + 2 ≤ 4096 ∧ t = s.latchFault .invalidInstruction) ∨
    (s.fault.valid = false ∧ ∃ i u, s.fetch.bind decodeWord = some i ∧ exec i s = .next u ∧
      t = if u.fault.valid then u else u.timerTick) := by
  cases hv : s.fault.valid with
  | true => rw [step_of_stopped s hv] at h; exact Or.inl ⟨rfl, (Host.Outcome.next.inj h).symm⟩
  | false =>
    rw [step_of_running s hv] at h
    split at h
    · rename_i hp
      cases hd : decodeWord (joinBytes (s.mem.lookup s.pc.toNat) (s.mem.lookup (s.pc.toNat + 1))) with
      | none =>
        rw [hd] at h
        exact Or.inr (Or.inr (Or.inl ⟨rfl, by rw [State.fetch_of_in s hp]; exact hd, hp, (Host.Outcome.next.inj h).symm⟩))
      | some i =>
        rw [hd] at h
        obtain ⟨u, hu, ht⟩ := finishCycle_eq_next _ _ h
        exact Or.inr (Or.inr (Or.inr ⟨rfl, i, u, by rw [State.fetch_of_in s hp]; exact hd, hu, ht⟩))
    · rename_i hp
      exact Or.inr (Or.inl ⟨rfl, by omega, (Host.Outcome.next.inj h).symm⟩)

/-! ## The routines with more than one end -/

theorem execRet_eq (s : State) :
    execRet s =
      if h : 0 < s.sp.val then
        .next { s with pc := s.stack[s.sp.val - 1]'(by omega), sp := ⟨s.sp.val - 1, by omega⟩ }
      else raise .emptyStack s := by
  unfold execRet
  split
  · rename_i t s' hp
    by_cases h : 0 < s.sp.val
    · rw [State.pop_of_pos s h] at hp
      obtain ⟨rfl, rfl⟩ := Prod.mk.inj (Option.some.inj hp)
      rw [dif_pos h]
      rfl
    · rw [State.pop_of_empty s (by omega)] at hp
      cases hp
  · rename_i hp
    by_cases h : 0 < s.sp.val
    · rw [State.pop_of_pos s h] at hp
      cases hp
    · rw [dif_neg h]

theorem execCallA_eq (o : GroupA) (s : State) :
    execCallA o s =
      if h : s.sp.val < 16 then
        .next { s with
          stack := s.stack.set s.sp.val (s.pc + 2) h, sp := ⟨s.sp.val + 1, by omega⟩, pc := o.nnn.setWidth 16 }
      else raise .fullStack s := by
  unfold execCallA
  by_cases h : s.sp.val < 16
  · rw [State.push_of_lt s _ h, dif_pos h]
    rfl
  · rw [State.push_of_full s _ (by omega), dif_neg h]

theorem execFontV_eq (o : GroupV) (s : State) :
    execFontV o s =
      if (s.readV o.x).toNat ≥ 16 then raise .invalidDigit s
      else .next (s.writeI (glyphAddr (s.readV o.x))).advance := rfl

theorem execMovVM_eq (o : GroupV) (s : State) :
    execMovVM o s =
      if InBounds s.i.toNat (o.x.toNat + 1) then
        .next (s.loadRegs ((List.range (o.x.toNat + 1)).map fun k => s.mem.lookup (s.i.toNat + k))).advance
      else raise .invalidAddress s :=
  withBytesAtI_eq _ _ _

theorem execDrwVVN_eq (o : GroupVVN) (s : State) :
    execDrwVVN o s =
      if InBounds s.i.toNat o.n.toNat then
        .next (s.drawSprite (s.readV o.x).toNat (s.readV o.y).toNat
          ((List.range o.n.toNat).map fun k => s.mem.lookup (s.i.toNat + k)))
      else raise .invalidAddress s := by
  have hn := o.n.isLt
  rw [execDrwVVN, drawAt, if_neg (by omega), withBytesAtI_eq]

theorem execWkpV_eq (o : GroupV) (s : State) :
    execWkpV o s =
      match leastKey s.keys with
      | none => .next s
      | some k => .next (s.writeV o.x (BitVec.ofNat 8 k)).advance := rfl

/-- What DRW draws (44_display.md R151): the picture of the sprite, and VF. -/
theorem drawSprite_draws (s : State) (x0 y0 n : Nat) :
    DrawsSet (spriteBit s x0 y0 n) (s.disp, false)
      (plotRows x0 y0 ((List.range n).map fun k => s.mem.lookup (s.i.toNat + k)) (s.disp, false)) := by
  refine (plotRows_draws x0 _ y0 _).congr fun x y _ _ => ?_
  simp only [spriteBit, List.length_map, List.length_range]
  by_cases h : x0 ≤ x ∧ x < x0 + 8 ∧ y0 ≤ y ∧ y < y0 + n
  · have hlt : y - y0 < n := by omega
    simp [h, hlt]
  · simp [h]

end Sys2Proof.Machine
end

