-- ==== Sys2Proof/Tests/Slice0.lean ====
section
/-! SUPPORT. The model's own tests: what WellFormed refuses, decoding of words written out from 30_encoding.md, one-cycle vectors
of 95_test_vectors.md, and for every obligation with hypotheses a concrete state and operands that meet them. The expected
results are the spec's. -/

namespace Sys2Proof.Tests
open Sys2Proof Sys2Proof.Machine

/-! ## Helpers -/

/-- The start state of 95_test_vectors.md: reset with `master_clock_rate` 60. -/
def base : State := { State.reset with masterClockRate := 60 }

/-- The state with some registers set. -/
def regs (l : List (Nibble × Byte)) (s : State) : State := l.foldl (fun s p => s.writeV p.1 p.2) s

/-- The state with bytes of memory set from `a` on. -/
def poke (a : Nat) (bs : List Byte) (s : State) : State := (s.loadImage a bs).getD s

/-- The state after one cycle of the word `w` placed at `pc`. -/
def cycle (w : Nat) (s : State) : Option State :=
  match step (s.withFetchWord 16 w) with
  | .next t => some t
  | .fault _ => none
  | .refused _ => none

/-- The state a step leads to; every step leads to one. -/
def after (s : State) : State :=
  match step s with
  | .next t => t
  | .fault _ => s
  | .refused _ => s

/-- The state an instruction leads to. -/
def done (i : Instr) (s : State) : State :=
  match exec i s with
  | .next t => t
  | .fault _ => s
  | .refused _ => s

/-- A register and `pc`. -/
def vPc (x : Nibble) (t : State) : Byte × Word := (t.readV x, t.pc)

/-- A register, VF and `pc`. -/
def vfPc (x : Nibble) (t : State) : Byte × Byte × Word := (t.readV x, t.readV 15, t.pc)

/-! ## WellFormed (R71): the two ill-formed terms, and their neighbours -/

theorem test_sys_0e0_is_ill_formed : (Instr.sysA ⟨0x0E0⟩).wellFormed = false := by decide
theorem test_sys_0ee_is_ill_formed : (Instr.sysA ⟨0x0EE⟩).wellFormed = false := by decide
theorem test_sys_0e1_is_well_formed : (Instr.sysA ⟨0x0E1⟩).wellFormed = true := by decide
/-- S5: what the two ill-formed terms' words decode to. -/
theorem test_ill_formed_words : decodeWord (encode (.sysA ⟨0x0E0⟩)) = some .cls ∧
    decodeWord (encode (.sysA ⟨0x0EE⟩)) = some .ret := by decide

/-! ## Decoding (95_test_vectors.md 2.1): a word for every constructor, and words with no instruction -/

theorem test_decode_level1 : decodeWord 0x00E0 = some .cls ∧ decodeWord 0x00EE = some .ret := by decide

theorem test_decode_level2_keys_timers : decodeWord 0xE19E = some (.skpV ⟨1⟩) ∧ decodeWord 0xE1A1 = some (.sknpV ⟨1⟩) ∧
    decodeWord 0xF107 = some (.movVDT ⟨1⟩) ∧ decodeWord 0xF00A = some (.wkpV ⟨0⟩) ∧
    decodeWord 0xF115 = some (.movDTV ⟨1⟩) ∧ decodeWord 0xF118 = some (.movSTV ⟨1⟩) := by decide

theorem test_decode_level2_index_memory : decodeWord 0xF11E = some (.addIV ⟨1⟩) ∧ decodeWord 0xF129 = some (.fontV ⟨1⟩) ∧
    decodeWord 0xF133 = some (.bcdV ⟨1⟩) ∧ decodeWord 0xF155 = some (.movMV ⟨1⟩) ∧
    decodeWord 0xF165 = some (.movVM ⟨1⟩) := by decide

theorem test_decode_level3_skips : decodeWord 0x5120 = some (.seqVV ⟨1, 2⟩) ∧ decodeWord 0x9120 = some (.sneVV ⟨1, 2⟩) := by
  decide

theorem test_decode_level3_alu : decodeWord 0x8AB0 = some (.movVV ⟨0xA, 0xB⟩) ∧ decodeWord 0x8AB1 = some (.orVV ⟨0xA, 0xB⟩) ∧
    decodeWord 0x8AB2 = some (.andVV ⟨0xA, 0xB⟩) ∧ decodeWord 0x8AB3 = some (.xorVV ⟨0xA, 0xB⟩) ∧
    decodeWord 0x8AB4 = some (.addVV ⟨0xA, 0xB⟩) ∧ decodeWord 0x8AB5 = some (.subVV ⟨0xA, 0xB⟩) ∧
    decodeWord 0x8126 = some (.shrVV ⟨1, 2⟩) ∧ decodeWord 0x8AB7 = some (.subnVV ⟨0xA, 0xB⟩) ∧
    decodeWord 0x8ABE = some (.shlVV ⟨0xA, 0xB⟩) := by decide

theorem test_decode_level4_address : decodeWord 0x0000 = some (.sysA ⟨0x000⟩) ∧ decodeWord 0x0FFF = some (.sysA ⟨0xFFF⟩) ∧
    decodeWord 0x1234 = some (.jmpA ⟨0x234⟩) ∧ decodeWord 0x2ABC = some (.callA ⟨0xABC⟩) ∧
    decodeWord 0xA123 = some (.movIA ⟨0x123⟩) ∧ decodeWord 0xB300 = some (.jmpV0A ⟨0x300⟩) := by decide

theorem test_decode_level4_byte : decodeWord 0x3A42 = some (.seqVB ⟨0xA, 0x42⟩) ∧ decodeWord 0x4A42 = some (.sneVB ⟨0xA, 0x42⟩) ∧
    decodeWord 0x6C7F = some (.movVB ⟨0xC, 0x7F⟩) ∧ decodeWord 0x7C01 = some (.addVB ⟨0xC, 0x01⟩) ∧
    decodeWord 0xC30F = some (.rndVB ⟨3, 0x0F⟩) := by decide

theorem test_decode_level4_sprite : decodeWord 0xD125 = some (.drwVVN ⟨1, 2, 5⟩) ∧
    decodeWord 0xD120 = some (.drwVVN ⟨1, 2, 0⟩) := by decide

theorem test_decode_none : decodeWord 0x5121 = none ∧ decodeWord 0x8AB8 = none ∧ decodeWord 0x8ABD = none ∧
    decodeWord 0x8ABF = none ∧ decodeWord 0x912F = none ∧ decodeWord 0xE19F = none ∧ decodeWord 0xE000 = none ∧
    decodeWord 0xF175 = none ∧ decodeWord 0xF1FF = none ∧ decodeWord 0xFFFF = none := by decide

/-- S5: encodings. -/
theorem test_encode : encode (.orVV ⟨10, 11⟩) = 0x8AB1 ∧ encode (.drwVVN ⟨1, 2, 5⟩) = 0xD125 ∧ encode (.jmpA ⟨0x234⟩) = 0x1234 ∧
    encode (.movVM ⟨1⟩) = 0xF165 := by decide

/-- S4: the codecs. -/
theorem test_codecs : vxCodec.place 0x3A = 0x0A00 ∧ vxCodec.extract 0x0A00 = 0xA ∧ addressCodec.place 0x1234 = 0x0234 ∧
    vyCodec.place 0xB = 0x00B0 ∧ byteCodec.place 0x1FF = 0x00FF := by decide

/-- R60, R41: bytes in address order, and too few of them. -/
theorem test_decode_bytes : decode [0x12, 0x34, 0xFF] = .ok (.jmpA ⟨0x234⟩, [0xFF]) ∧ decode [0x12] = .error .truncated := by
  decide

/-! ## Control transfer (95_test_vectors.md 2.2) -/

theorem test_jmp : (cycle 0x1204 base).map State.pc = some 0x204 := by decide
theorem test_call : (cycle 0x220A base).map (fun t => (t.stack[0], t.sp, t.pc)) = some (0x202, 1, 0x20A) := by decide
theorem test_call_full : (cycle 0x2200 { base with sp := 16 }).map (fun t => (t.fault, t.sp, t.pc)) =
    some (⟨true, FaultType.code .fullStack, 0x200⟩, 16, 0x200) := by decide
theorem test_ret : (cycle 0x00EE { base with sp := 2, stack := (base.stack.set 0 0x300).set 1 0x456 }).map
    (fun t => (t.pc, t.sp, t.stack[1])) = some (0x456, 1, 0x456) := by decide
theorem test_ret_empty : (cycle 0x00EE base).map (fun t => (t.fault, t.sp, t.pc)) =
    some (⟨true, FaultType.code .emptyStack, 0x200⟩, 0, 0x200) := by decide
theorem test_seq_byte : (cycle 0x3142 (regs [(1, 0x42)] base)).map State.pc = some 0x204 ∧
    (cycle 0x3142 (regs [(1, 0x43)] base)).map State.pc = some 0x202 := by decide
theorem test_sne_byte : (cycle 0x4142 (regs [(1, 0x42)] base)).map State.pc = some 0x202 ∧
    (cycle 0x4142 (regs [(1, 0x43)] base)).map State.pc = some 0x204 := by decide
theorem test_seq_reg : (cycle 0x5120 (regs [(1, 0x33), (2, 0x33)] base)).map State.pc = some 0x204 ∧
    (cycle 0x5120 (regs [(1, 0x33), (2, 0x34)] base)).map State.pc = some 0x202 := by decide
theorem test_sne_reg : (cycle 0x9120 (regs [(1, 1), (2, 2)] base)).map State.pc = some 0x204 ∧
    (cycle 0x9110 (regs [(1, 1)] base)).map State.pc = some 0x202 := by decide
theorem test_jmp_v0 : (cycle 0xBFFF (regs [(0, 0xFF)] base)).map State.pc = some 0x10FE := by decide
theorem test_sys : (cycle 0x0000 base).map (fun t => (t.fault, t.pc)) = some (⟨true, FaultType.code .invalidInstruction, 0x200⟩, 0x200) := by
  decide

/-! ## ALU (95_test_vectors.md 2.3) -/

theorem test_mov_byte : (cycle 0x60EA base).map (vPc 0) = some (0xEA, 0x202) := by decide
theorem test_add_byte_no_flag : (cycle 0x7002 (regs [(0, 0xFF)] base)).map (vfPc 0) = some (0x01, 0, 0x202) := by decide
theorem test_mov_reg : (cycle 0x8120 (regs [(2, 0x7C)] base)).map (vPc 1) = some (0x7C, 0x202) := by decide
theorem test_or : (cycle 0x8AB1 (regs [(10, 0xF0), (11, 0x0F), (15, 7)] base)).map (vfPc 10) = some (0xFF, 7, 0x202) := by decide
theorem test_and : (cycle 0x8122 (regs [(1, 0xF0), (2, 0x3C)] base)).map (vPc 1) = some (0x30, 0x202) := by decide
theorem test_xor : (cycle 0x8123 (regs [(1, 0xF0), (2, 0x3C)] base)).map (vPc 1) = some (0xCC, 0x202) := by decide
/-- S7: the sum over the flag. -/
theorem test_add_into_vf : (cycle 0x8F04 (regs [(15, 0x7F), (0, 0x21)] base)).map (vfPc 0) = some (0x21, 0xA0, 0x202) := by decide
/-- S7: the carry from the old VF. -/
theorem test_add_from_vf : (cycle 0x87F4 (regs [(7, 0xA4), (15, 0x4A)] base)).map (vfPc 7) = some (0xEE, 0x00, 0x202) := by decide
theorem test_sub_borrow : (cycle 0x8015 (regs [(0, 3), (1, 5)] base)).map (vfPc 0) = some (0xFE, 0, 0x202) := by decide
theorem test_sub_equal : (cycle 0x8015 (regs [(0, 5), (1, 5)] base)).map (vfPc 0) = some (0, 1, 0x202) := by decide
theorem test_subn : (cycle 0x8017 (regs [(0, 3), (1, 5)] base)).map (vfPc 0) = some (2, 1, 0x202) := by decide
theorem test_subn_borrow : (cycle 0x8017 (regs [(0, 5), (1, 3)] base)).map (vfPc 0) = some (0xFE, 0, 0x202) := by decide
theorem test_shr_vx (h : Config.shiftSrc = .vx) :
    vfPc 1 (done (.shrVV ⟨1, 2⟩) (regs [(1, 0x05), (2, 0x04)] base)) = (0x02, 1, 0x202) := by
  simp only [done, exec, execShrVV, shiftOperand, h]; decide
theorem test_shr_vy (h : Config.shiftSrc = .vy) :
    vfPc 1 (done (.shrVV ⟨1, 2⟩) (regs [(1, 0x05), (2, 0x04)] base)) = (0x02, 0, 0x202) := by
  simp only [done, exec, execShrVV, shiftOperand, h]; decide
theorem test_shl_vx (h : Config.shiftSrc = .vx) :
    vfPc 1 (done (.shlVV ⟨1, 2⟩) (regs [(1, 0x81), (2, 0x40)] base)) = (0x02, 1, 0x202) := by
  simp only [done, exec, execShlVV, shiftOperand, h]; decide
theorem test_shl_vy (h : Config.shiftSrc = .vy) :
    vfPc 1 (done (.shlVV ⟨1, 2⟩) (regs [(1, 0x81), (2, 0x40)] base)) = (0x80, 0, 0x202) := by
  simp only [done, exec, execShlVV, shiftOperand, h]; decide
theorem test_rnd (h : Config.rndIn 0 = 0xA7) : vPc 3 (done (.rndVB ⟨3, 0x0F⟩) base) = (0x07, 0x202) := by
  have hd : base.draw = 0xA7 := h
  simp only [done, exec, execRndVB, hd]; decide

/-! ## Index register and memory (95_test_vectors.md 2.4) -/

theorem test_mov_i : (cycle 0xAFFF base).map (fun t => (t.i, t.pc)) = some (0x0FFF, 0x202) := by decide
theorem test_add_i_wraps : (cycle 0xF21E (regs [(2, 1)] { base with i := 0xFFFF })).map (fun t => (t.i, t.readV 15)) =
    some (0, 0) := by decide
theorem test_font : (cycle 0xF029 (regs [(0, 0x0F)] base)).map (fun t => (t.i, t.pc)) = some (0x014B, 0x202) := by decide
theorem test_font_digit : (cycle 0xF029 (regs [(0, 0x10)] base)).map (fun t => (t.fault, t.i, t.pc)) =
    some (⟨true, FaultType.code .invalidDigit, 0x200⟩, 0, 0x200) := by decide
theorem test_bcd : (cycle 0xF033 (regs [(0, 0xEA)] { base with i := 0x300 })).map
    (fun t => (t.mem.readBytes 0x300 3, t.i, t.pc)) = some (some [2, 3, 4], 0x300, 0x202) := by decide
/-- 95_test_vectors.md 2.7: the latched address is the BCD's. -/
theorem test_bcd_bounds : (cycle 0xF033 (regs [(0, 0x7B)] { base with i := 0xFFE })).map
    (fun t => (t.fault, t.mem.readBytes 0xFFE 2)) = some (⟨true, FaultType.code .invalidAddress, 0x200⟩, some [0, 0]) := by decide
theorem test_bulk_store : (cycle 0xF255 (regs [(0, 0x11), (1, 0x22), (2, 0x33), (3, 0x44)] { base with i := 0x400 })).map
    (fun t => (t.mem.readBytes 0x400 4, t.i)) = some (some [0x11, 0x22, 0x33, 0], 0x400) := by decide
theorem test_bulk_store_bounds : (cycle 0xFF55 (regs [(0, 1)] { base with i := 0xFF1 })).map
    (fun t => (t.fault, t.mem.read 0xFF1)) = some (⟨true, FaultType.code .invalidAddress, 0x200⟩, some 0) := by decide
theorem test_bulk_load : (cycle 0xF265 (poke 0x300 [2, 3, 4, 9] { base with i := 0x300 })).map
    (fun t => ([t.readV 0, t.readV 1, t.readV 2, t.readV 3], t.i, t.pc)) = some ([2, 3, 4, 0], 0x300, 0x202) := by decide
theorem test_bulk_load_bounds : (cycle 0xFF65 (regs [(0, 5)] { base with i := 0xFF1 })).map (fun t => (t.fault, t.readV 0)) =
    some (⟨true, FaultType.code .invalidAddress, 0x200⟩, 5) := by decide

/-! ## Display (95_test_vectors.md 2.5) -/

/-- S8: CLS after a lit pixel. -/
theorem test_cls : (cycle 0x00E0 (regs [(15, 7)] { base with disp := base.disp.setPixel 5 5 true })).map
    (fun t => (t.disp.pixel 5 5, t.readV 15, t.pc)) = some (some false, 7, 0x202) := by decide
theorem test_drw_collision :
    (cycle 0xD011 (poke 0x300 [0xC0] { base with i := 0x300, disp := base.disp.setPixel 1 0 true })).map
      (fun t => (t.disp.pixel 0 0, t.disp.pixel 1 0, t.readV 15, t.pc)) = some (some true, some false, 1, 0x202) := by decide
theorem test_drw_clips :
    (cycle 0xD012 (poke 0x20C [0xE0, 0xFF] (regs [(0, 62), (1, 31)] { base with i := 0x20C }))).map
      (fun t => ([t.disp.pixel 61 31, t.disp.pixel 62 31, t.disp.pixel 63 31, t.disp.pixel 0 0], t.readV 15)) =
        some ([some false, some true, some true, some false], 0) := by decide
/-- S9: the null pixels. -/
theorem test_display_bounds : base.disp.pixel 64 0 = none ∧ base.disp.pixel 0 32 = none ∧ base.disp.pixel 64 32 = none ∧
    base.disp.pixel 63 31 = some false := by decide

/-! ## Keypad and timers (95_test_vectors.md 2.6) -/

theorem test_skp : (cycle 0xE19E (regs [(1, 5)] { base with keys := 0x0020 })).map State.pc = some 0x204 := by decide
theorem test_skp_wide_index : (cycle 0xE19E (regs [(1, 0x15)] { base with keys := 0xFFFF })).map State.pc = some 0x202 := by decide
theorem test_sknp : (cycle 0xE1A1 (regs [(1, 5)] { base with keys := 0x0020 })).map State.pc = some 0x202 := by decide
theorem test_sknp_wide_index : (cycle 0xE1A1 (regs [(1, 0xFF)] { base with keys := 0xFFFF })).map State.pc = some 0x204 := by
  decide
theorem test_wkp : (cycle 0xF30A { base with keys := 0x0090 }).map (vPc 3) = some (4, 0x202) := by decide
theorem test_wkp_waits : (cycle 0xF30A { base with dt := 9 }).map (fun t => (t.pc, t.readV 3, t.dt)) = some (0x200, 0, 8) := by
  decide
theorem test_mov_v_dt : (cycle 0xF107 { base with dt := 2 }).map (fun t => (t.readV 1, t.dt, t.pc)) = some (2, 1, 0x202) := by
  decide
theorem test_mov_dt_v : (cycle 0xF015 (regs [(0, 3)] base)).map (fun t => (t.dt, t.pc)) = some (2, 0x202) := by decide
theorem test_mov_dt_v_slow : (cycle 0xF015 (regs [(0, 3)] { base with masterClockRate := 240 })).map
    (fun t => (t.dt, t.dtAcc)) = some (3, 1) := by decide
theorem test_mov_st_v : (cycle 0xF218 (regs [(2, 0x10)] base)).map (fun t => (t.st, t.pc)) = some (0x0F, 0x202) := by decide

/-! ## Fetch and the latch (95_test_vectors.md 2.2, 2.7) -/

theorem test_fetch_edge : (cycle 0x1FFE { base with pc := 0xFFE }).map (fun t => (t.pc, t.fault.valid)) = some (0xFFE, false) := by
  decide
theorem test_fetch_past_edge : after { base with pc := 0xFFF } = { base with pc := 0xFFF, fault := ⟨true, FaultType.code .invalidAddress, 0xFFF⟩ } := by
  decide
theorem test_latch_holds : after { base with fault := ⟨true, FaultType.code .invalidPixel, 0x123⟩, dt := 5 } =
    { base with fault := ⟨true, FaultType.code .invalidPixel, 0x123⟩, dt := 5 } := by decide
/-- R27: the host may write the codes that have no name into `FAULT.type`; R91: the machine honours the latch. -/
theorem test_host_writes_unnamed_fault_type : [(6 : BitVec 3), 7].all (fun c =>
    ((HostAction.writeFault ⟨true, c, 0x123⟩).apply base).any (fun t =>
      decide (t.fault = ⟨true, c, 0x123⟩ ∧ (after t).fault = ⟨true, c, 0x123⟩ ∧ (after t).pc = 0x200))) = true := by decide
theorem test_fault_codes : [FaultType.invalidAddress, .invalidInstruction, .invalidPixel, .emptyStack, .fullStack,
    .invalidDigit].map FaultType.code = [0, 1, 2, 3, 4, 5] := by decide

/-! ## Witnesses: the hypotheses of each obligation are met, clause by clause at the ends of their ranges -/

theorem witness_DecodeOfEncodeIsIdentity : (Instr.sysA ⟨0x0E1⟩).wellFormed = true ∧ (Instr.sysA ⟨0xFFF⟩).wellFormed = true ∧
    (Instr.drwVVN ⟨15, 15, 0⟩).wellFormed = true := by decide

theorem witness_EncodeOfDecodeIsIdentity : decodeWord 0x00E0 = some .cls ∧ decodeWord 0xF0A1 = none ∧
    decodeWord 0xEFA1 = some (.sknpV ⟨15⟩) := by decide

/-- A word on each side of each row of R72. -/
theorem witness_WordsWithoutInstruction :
    [0x5001, 0x500F, 0x8008, 0x800D, 0x800F, 0x9001, 0xE09D, 0xE0A2, 0xF006, 0xF064].all (fun w => (decodeWord w).isNone) = true ∧
    [0x5000, 0x8007, 0x800E, 0x9000, 0xE09E, 0xE0A1, 0xF007, 0xF065].all (fun w => (decodeWord w).isSome) = true := by decide

theorem witness_CodecContract : addressCodec ∈ [addressCodec, byteCodec, vxCodec, vyCodec, nibbleCodec] ∧
    nibbleCodec ∈ [addressCodec, byteCodec, vxCodec, vyCodec, nibbleCodec] := by decide

/-- A routine that completes and one that raises. -/
theorem witness_StepRunsDecodedInstruction :
    (let s := base.withFetchWord 16 0x1204
     s.Running ∧ s.mem.read s.pc.toNat = some 0x12 ∧ s.mem.read (s.pc.toNat + 1) = some 0x04 ∧
      decodeWord ((0x12 : Byte) ++ (0x04 : Byte)) = some (.jmpA ⟨0x204⟩) ∧ (done (.jmpA ⟨0x204⟩) s).fault.valid = false) ∧
    base.Running ∧ base.mem.read base.pc.toNat = some 0 ∧ base.mem.read (base.pc.toNat + 1) = some 0 ∧
      decodeWord ((0 : Byte) ++ (0 : Byte)) = some (.sysA ⟨0⟩) ∧ (done (.sysA ⟨0⟩) base).fault.valid = true := by decide

/-- Both of those routines end in a next state. -/
theorem witness_StepRunsDecodedInstruction_next :
    (∃ t, exec (.jmpA ⟨0x204⟩) (base.withFetchWord 16 0x1204) = .next t) ∧ ∃ t, exec (.sysA ⟨0⟩) base = .next t :=
  ⟨⟨_, rfl⟩, ⟨_, rfl⟩⟩

theorem witness_PlacedWordIsTheOneExecuted : State.reset.Running ∧ State.reset.pc.toNat ≤ 4094 ∧
    decodeWord 0x1204 = some (.jmpA ⟨0x204⟩) ∧ ({ base with pc := 4094 } : State).pc.toNat ≤ 4094 := by decide

theorem witness_FaultedMachineIsFrozen : ({ base with fault := ⟨true, FaultType.code .emptyStack, 0x20A⟩ } : State).Stopped := by decide

theorem witness_FetchBigEndianOrFault : base.Running ∧ ({ base with pc := 4094 } : State).pc.toNat < 4095 ∧
    ({ base with pc := 4095 } : State).pc.toNat ≥ 4095 ∧ ({ base with pc := 0xFFFF } : State).pc.toNat ≥ 4095 := by decide

theorem witness_UndecodableWordFaults :
    let s := base.withFetchWord 16 0xE19F
    s.Running ∧ s.mem.read s.pc.toNat = some 0xE1 ∧ s.mem.read (s.pc.toNat + 1) = some 0x9F ∧
      decodeWord ((0xE1 : Byte) ++ (0x9F : Byte)) = none := by decide

/-- A cycle that fails in fetch, in decode and in execute. -/
theorem witness_FailingCycleLeavesNoTrace :
    ∀ s ∈ [{ base with pc := 4095 }, base.withFetchWord 16 0xFFFF, base], s.Running ∧ ∃ t, step s = .next t ∧ t.Stopped := by
  intro s hs
  refine ⟨?_, after s, ?_, ?_⟩ <;> (fin_cases hs <;> rfl)

/-- A cause of each kind of R171's table, and none. -/
theorem witness_FaultsAreExactlyTheListedCauses : base.Running ∧
    ({ base with pc := 4095 } : State).faultCause = some .invalidAddress ∧
    (base.withFetchWord 16 0xFFFF).faultCause = some .invalidInstruction ∧
    (base.withFetchWord 16 0x00EE).faultCause = some .emptyStack ∧
    (({ base with sp := 16 } : State).withFetchWord 16 0x2200).faultCause = some .fullStack ∧
    ((regs [(0, 16)] base).withFetchWord 16 0xF029).faultCause = some .invalidDigit ∧
    (base.withFetchWord 16 0x1200).faultCause = none := by decide

theorem witness_OkMeansOneInstructionCompleted :
    (∃ t, step (base.withFetchWord 16 0x1200) = .next t ∧ cycleOk (base.withFetchWord 16 0x1200) t = true) ∧
    ∃ t, step base = .next t ∧ cycleOk base t = false :=
  ⟨⟨after (base.withFetchWord 16 0x1200), rfl, by decide⟩, ⟨after base, rfl, by decide⟩⟩

/-- A cycle that writes DT, one that writes ST, one that writes neither. -/
theorem witness_SuccessfulCycleTicksTimers : ∀ w ∈ [0xF015, 0xF018, 0x1200],
    (base.withFetchWord 16 w).Running ∧ ∃ t, step (base.withFetchWord 16 w) = .next t ∧ t.Running := by
  intro w hw
  refine ⟨?_, after (base.withFetchWord 16 w), ?_, ?_⟩ <;> (fin_cases hw <;> rfl)

theorem witness_TimerPeriod : base.dtAcc = 0 ∧ base.stAcc = 0 := by decide

theorem witness_TimerCountsOfTheDocument :
    (let s : State := { base with dt := 0xFF }; s.dtAcc = 0 ∧ s.dt = 0xFF ∧ s.masterClockRate = 60) ∧
    let s : State := { base with dt := 0xFF, masterClockRate := 240 }; s.dtAcc = 0 ∧ s.dt = 0xFF ∧ s.masterClockRate = 240 := by
  decide

theorem base_inv : base.Inv := ⟨Memory.wf_reset, rfl⟩

theorem base_accBounded : base.AccBounded := ⟨by decide, by decide⟩

theorem witness_StepKeepsInvariants : base.Inv ∧ ∃ t, step base = .next t := ⟨base_inv, after base, rfl⟩

theorem witness_StepKeepsAccumulatorBound : base.AccBounded ∧ (∃ t, step base = .next t) ∧
    ∃ t, step (base.withFetchWord 16 0x1200) = .next t ∧ cycleOk (base.withFetchWord 16 0x1200) t = true :=
  ⟨base_accBounded, ⟨after base, rfl⟩, ⟨after (base.withFetchWord 16 0x1200), rfl, by decide⟩⟩

/-- A state after a host action and a cycle. -/
theorem witness_ReachableStatesHoldInvariants : ∃ s t, (HostAction.loadProgram [0x12, 0x00]).apply State.reset = some s ∧
    step s = .next t ∧ Reachable t :=
  ⟨_, after ((State.reset.loadImage 0x200 [0x12, 0x00]).getD State.reset), rfl, rfl,
    .cycle _ _ (.host (.loadProgram [0x12, 0x00]) State.reset _ .reset rfl) rfl⟩

theorem witness_ExecChangesOnlyListedElements : ∃ t, exec (.callA ⟨0x200⟩) base = .next t := ⟨done (.callA ⟨0x200⟩) base, rfl⟩

theorem witness_OnlyDestinationsAndFlagsChange : (∃ t, exec (.addVV ⟨1, 2⟩) base = .next t) ∧
    isDestination 2 (.addVV ⟨1, 2⟩) = false ∧ ¬((2 : Nibble) = 15 ∧ flagSetting (.addVV ⟨1, 2⟩) = true) ∧
    isDestination 15 (.orVV ⟨1, 2⟩) = false ∧ ¬((15 : Nibble) = 15 ∧ flagSetting (.orVV ⟨1, 2⟩) = true) :=
  ⟨⟨done (.addVV ⟨1, 2⟩) base, rfl⟩, by decide⟩

/-- The first `I` that each clause of R44 turns away, with x = 15 and n = 0, 1 and 15. -/
theorem witness_OutOfBoundsTransferFaults :
    ({ base with i := 4094 } : State).i.toNat + 3 > 4096 ∧
    ({ base with i := 4081 } : State).i.toNat + ((15 : Nibble).toNat + 1) > 4096 ∧
    ({ base with i := 4097 } : State).i.toNat + (0 : Nibble).toNat > 4096 ∧
    ({ base with i := 4096 } : State).i.toNat + (1 : Nibble).toNat > 4096 ∧
    ({ base with i := 4082 } : State).i.toNat + (15 : Nibble).toNat > 4096 := by decide

theorem witness_WideSpriteHeightFaults : 16 > 15 := by decide

theorem witness_RetPopsOrFaults : 0 < ({ base with sp := 1 } : State).sp.val ∧ 0 < ({ base with sp := 16 } : State).sp.val ∧
    base.sp.val = 0 := by decide

theorem witness_CallPushesOrFaults : base.sp.val < 16 ∧ ({ base with sp := 15 } : State).sp.val < 16 ∧
    ({ base with sp := 16 } : State).sp.val = 16 := by decide

theorem witness_RetUndoesCall : ({ base with sp := 15 } : State).sp.val < 16 := by decide

theorem witness_FontGivesGlyphAddress : ((regs [(0, 15)] base).readV 0).toNat < 16 ∧
    ((regs [(0, 16)] base).readV 0).toNat ≥ 16 := by decide

theorem witness_BcdStoresDigits : ({ base with i := 4093 } : State).i.toNat + 3 ≤ 4096 := by decide

theorem witness_BulkStoreWritesRegisters : ({ base with i := 4080 } : State).i.toNat + ((15 : Nibble).toNat + 1) ≤ 4096 ∧
    ({ base with i := 4095 } : State).i.toNat + ((0 : Nibble).toNat + 1) ≤ 4096 := by decide

/-- For k at both ends of x = 14. -/
theorem witness_BulkLoadReadsRegisters : ({ base with i := 4081 } : State).i.toNat + ((14 : Nibble).toNat + 1) ≤ 4096 ∧
    (14 : Nibble).toNat ≤ (14 : Nibble).toNat ∧ (14 : Nibble).toNat < (15 : Nibble).toNat := by decide

theorem witness_BulkLoadRestoresBulkStore : ∃ t u : State, base.i.toNat + ((3 : Nibble).toNat + 1) ≤ 4096 ∧
    exec (.movMV ⟨3⟩) base = .next t ∧ OnlyChanges [.v, .pc] t u ∧ t ≠ u := by
  refine ⟨done (.movMV ⟨3⟩) base, (done (.movMV ⟨3⟩) base).advance, by decide, rfl, ?_, ?_⟩
  · intro e he
    cases e <;> first | rfl | exact fun _ => rfl | exact fun _ _ => rfl | exact absurd he (by decide)
  · intro h
    exact absurd (congrArg State.pc h) (by decide)

theorem witness_FetchSeesStoredBytes : 1 ≤ (1 : Nibble).toNat ∧
    ({ base with i := 4094 } : State).i.toNat + ((1 : Nibble).toNat + 1) ≤ 4096 ∧
    ∃ t, exec (.movMV ⟨1⟩) { base with i := 4094 } = .next t :=
  ⟨by decide, by decide, done (.movMV ⟨1⟩) { base with i := 4094 }, rfl⟩

/-- Also n = 0 with `I` = 4096, and a sprite whose 1 bits lie on a lit and on a dark pixel. -/
theorem witness_DrwFlipsSpritePixels :
    ({ base with i := 4096 } : State).i.toNat + (0 : Nibble).toNat ≤ 4096 ∧
    ({ base with i := 4081 } : State).i.toNat + (15 : Nibble).toNat ≤ 4096 ∧
    let s := poke 0x300 [0xC0] { base with i := 0x300, disp := base.disp.setPixel 1 0 true }
    spriteBit s 0 0 1 1 0 = true ∧ s.disp.pixel 1 0 = some true ∧ spriteBit s 0 0 1 0 0 = true ∧
      s.disp.pixel 0 0 = some false := by decide

theorem witness_DrwTwiceRestoresDisplay : base.i.toNat + (5 : Nibble).toNat ≤ 4096 ∧ (0 : Nibble) ≠ 15 ∧ (1 : Nibble) ≠ 15 := by
  decide

/-- The key index at both sides of 16. -/
theorem witness_SkipsOnKey :
    let s := regs [(0, 15), (1, 16)] { base with keys := 0x8000 }
    (s.readV 0).toNat < 16 ∧ s.keys.getLsbD (s.readV 0).toNat = true ∧ ¬(s.readV 1).toNat < 16 := by decide

theorem witness_WkpTakesLeastKey : (15 < 16 ∧ (0x8000 : Word).getLsbD 15 = true ∧ ∀ j, j < 15 → (0x8000 : Word).getLsbD j = false) ∧
    (4 < 16 ∧ (0x0090 : Word).getLsbD 4 = true ∧ ∀ j, j < 4 → (0x0090 : Word).getLsbD j = false) := by decide

theorem witness_WkpWaitsWithoutKey :
    let s := base.withFetchWord 16 0xF30A
    s.Running ∧ s.keys = 0 ∧ s.fetch.bind decodeWord = some (.wkpV ⟨3⟩) := by decide

theorem witness_ClearedFaultComesBack : base.Running ∧ ∃ t, step base = .next t ∧ t.Stopped :=
  ⟨by decide, after base, rfl, by decide⟩

/-- The highest address and the widest fault type. -/
theorem witness_HostWritesAnyValueOfTheWidth : 4095 < 4096 ∧ (7 : BitVec 3).toNat = 7 ∧
    (∃ t, (HostAction.writeMem 4095 1).apply base = some t) ∧ ∃ t, (HostAction.writeFault ⟨true, 7, 0⟩).apply base = some t :=
  ⟨by decide, by decide, ⟨_, rfl⟩, ⟨_, rfl⟩⟩

theorem witness_LoaderCopiesOrFails : 4094 + ([1, 2] : List Byte).length ≤ 4096 ∧ 4095 + ([1, 2] : List Byte).length > 4096 := by
  decide

theorem witness_KeyDiff : 15 < 16 ∧ (pressedSince 0x0001 0x8001).getLsbD 15 = true ∧
    (releasedSince 0x8001 0x0001).getLsbD 15 = true := by decide

/-- At 0x200 and at the last address a word fits. -/
theorem witness_IdleStaysIdle :
    (let s := base.withFetchWord 16 0x1200; s.Running ∧ s.Idle) ∧
    let s := ({ base with pc := 0xFFE } : State).withFetchWord 16 0x1FFE; s.Running ∧ s.Idle := by decide

end Sys2Proof.Tests
end

/-! # What instructions and the host change, the reset state, the key diff (10_state.md R11, R19, R27, R30) -/

namespace Sys2Proof.Machine

/-! ## Frames

`OnlyChanges es s t` is built up along the updates that lead from `s` to `t`: one rule per field of the state, then one per named
operation. Each asks that the element it writes is listed, which `simp` finds by itself when the list is
written out or is an instruction's. -/

section Frame

variable {es : List Elem} {s t : State}

theorem OnlyChanges.refl (es : List Elem) (s : State) : OnlyChanges es s s := by
  intro e _
  cases e <;> simp [SameElem]

theorem OnlyChanges.set_v (h : OnlyChanges es s t) (v : Vector Byte 16) (hm : Elem.v ∈ es := by simp [instrWrites]) :
    OnlyChanges es s { t with v := v } := by
  intro e he
  cases e with
  | v => exact absurd hm he
  | _ => exact h _ he

theorem OnlyChanges.set_i (h : OnlyChanges es s t) (w : Word) (hm : Elem.i ∈ es := by simp [instrWrites]) :
    OnlyChanges es s { t with i := w } := by
  intro e he
  cases e with
  | i => exact absurd hm he
  | _ => exact h _ he

theorem OnlyChanges.set_dt (h : OnlyChanges es s t) (b : Byte) (hm : Elem.dt ∈ es := by simp [instrWrites]) :
    OnlyChanges es s { t with dt := b } := by
  intro e he
  cases e with
  | dt => exact absurd hm he
  | _ => exact h _ he

theorem OnlyChanges.set_st (h : OnlyChanges es s t) (b : Byte) (hm : Elem.st ∈ es := by simp [instrWrites]) :
    OnlyChanges es s { t with st := b } := by
  intro e he
  cases e with
  | st => exact absurd hm he
  | _ => exact h _ he

theorem OnlyChanges.set_pc (h : OnlyChanges es s t) (w : Word) (hm : Elem.pc ∈ es := by simp [instrWrites]) :
    OnlyChanges es s { t with pc := w } := by
  intro e he
  cases e with
  | pc => exact absurd hm he
  | _ => exact h _ he

theorem OnlyChanges.set_mem (h : OnlyChanges es s t) (m : Memory) (hm : Elem.mem ∈ es := by simp [instrWrites]) :
    OnlyChanges es s { t with mem := m } := by
  intro e he
  cases e with
  | mem => exact absurd hm he
  | _ => exact h _ he

theorem OnlyChanges.set_stack (h : OnlyChanges es s t) (st : Vector Word 16) (hm : Elem.stack ∈ es := by simp [instrWrites]) :
    OnlyChanges es s { t with stack := st } := by
  intro e he
  cases e with
  | stack => exact absurd hm he
  | _ => exact h _ he

theorem OnlyChanges.set_sp (h : OnlyChanges es s t) (n : Fin 17) (hm : Elem.sp ∈ es := by simp [instrWrites]) :
    OnlyChanges es s { t with sp := n } := by
  intro e he
  cases e with
  | sp => exact absurd hm he
  | _ => exact h _ he

theorem OnlyChanges.set_keys (h : OnlyChanges es s t) (w : Word) (hm : Elem.keys ∈ es := by simp [instrWrites]) :
    OnlyChanges es s { t with keys := w } := by
  intro e he
  cases e with
  | keys => exact absurd hm he
  | _ => exact h _ he

theorem OnlyChanges.set_disp (h : OnlyChanges es s t) (d : Display) (hm : Elem.disp ∈ es := by simp [instrWrites]) :
    OnlyChanges es s { t with disp := d } := by
  intro e he
  cases e with
  | disp => exact absurd hm he
  | _ => exact h _ he

theorem OnlyChanges.set_fault (h : OnlyChanges es s t) (f : FaultLatch) (hm : Elem.fault ∈ es := by simp [instrWrites]) :
    OnlyChanges es s { t with fault := f } := by
  intro e he
  cases e with
  | fault => exact absurd hm he
  | _ => exact h _ he

theorem OnlyChanges.set_masterClockRate (h : OnlyChanges es s t) (r : BitVec 32)
    (hm : Elem.masterClockRate ∈ es := by simp [instrWrites]) :
    OnlyChanges es s { t with masterClockRate := r } := by
  intro e he
  cases e with
  | masterClockRate => exact absurd hm he
  | _ => exact h _ he

theorem OnlyChanges.set_draws (h : OnlyChanges es s t) (n : Nat) (hm : Elem.draws ∈ es := by simp [instrWrites]) :
    OnlyChanges es s { t with draws := n } := by
  intro e he
  cases e with
  | draws => exact absurd hm he
  | _ => exact h _ he

theorem OnlyChanges.jump (h : OnlyChanges es s t) (w : Word) (hm : Elem.pc ∈ es := by simp [instrWrites]) :
    OnlyChanges es s (t.jump w) := h.set_pc _ hm

theorem OnlyChanges.advance (h : OnlyChanges es s t) (hm : Elem.pc ∈ es := by simp [instrWrites]) :
    OnlyChanges es s (t.advance) := h.set_pc _ hm

theorem OnlyChanges.skipIf (h : OnlyChanges es s t) (c : Bool) (hm : Elem.pc ∈ es := by simp [instrWrites]) :
    OnlyChanges es s (t.skipIf c) := h.set_pc _ hm

theorem OnlyChanges.writeV (h : OnlyChanges es s t) (x : Nibble) (b : Byte) (hm : Elem.v ∈ es := by simp [instrWrites]) :
    OnlyChanges es s (t.writeV x b) := h.set_v _ hm

theorem OnlyChanges.writeFlagThenResult (h : OnlyChanges es s t) (x : Nibble) (c : Bool) (r : Byte)
    (hm : Elem.v ∈ es := by simp [instrWrites]) :
    OnlyChanges es s (t.writeFlagThenResult x c r) := (h.writeV _ _ hm).writeV _ _ hm

theorem OnlyChanges.loadRegs (h : OnlyChanges es s t) (bs : List Byte) (hm : Elem.v ∈ es := by simp [instrWrites]) :
    OnlyChanges es s (t.loadRegs bs) := h.set_v _ hm

theorem OnlyChanges.writeI (h : OnlyChanges es s t) (w : Word) (hm : Elem.i ∈ es := by simp [instrWrites]) :
    OnlyChanges es s (t.writeI w) := h.set_i _ hm

theorem OnlyChanges.drawn (h : OnlyChanges es s t) (hm : Elem.draws ∈ es := by simp [instrWrites]) :
    OnlyChanges es s (t.drawn) := h.set_draws _ hm

theorem OnlyChanges.latchFault (h : OnlyChanges es s t) (f : FaultType) (hm : Elem.fault ∈ es := by simp [instrWrites]) :
    OnlyChanges es s (t.latchFault f) := h.set_fault _ hm

theorem OnlyChanges.drawSprite (h : OnlyChanges es s t) (x0 y0 : Nat) (rows : List Byte)
    (hd : Elem.disp ∈ es := by simp [instrWrites]) (hv : Elem.v ∈ es := by simp [instrWrites])
    (hpc : Elem.pc ∈ es := by simp [instrWrites]) : OnlyChanges es s (t.drawSprite x0 y0 rows) :=
  ((h.set_disp _ hd).writeV _ _ hv).advance hpc

end Frame

/-! ## The execute routines with more than one end, by what they can end in -/

theorem execRet_next_cases (s t : State) (h : execRet s = .next t) :
    t = s.latchFault .emptyStack ∨ ∃ w n, t = { s with pc := w, sp := n } := by
  rw [execRet_eq] at h
  split at h
  · exact Or.inr ⟨_, _, (Host.Outcome.next.inj h).symm⟩
  · exact Or.inl (Host.Outcome.next.inj h).symm

theorem execCallA_next_cases (o : GroupA) (s t : State) (h : execCallA o s = .next t) :
    t = s.latchFault .fullStack ∨ ∃ st n w, t = { s with stack := st, sp := n, pc := w } := by
  rw [execCallA_eq] at h
  split at h
  · exact Or.inr ⟨_, _, _, (Host.Outcome.next.inj h).symm⟩
  · exact Or.inl (Host.Outcome.next.inj h).symm

theorem execFontV_next_cases (o : GroupV) (s t : State) (h : execFontV o s = .next t) :
    t = s.latchFault .invalidDigit ∨ t = (s.writeI (glyphAddr (s.readV o.x))).advance := by
  rw [execFontV_eq] at h
  split at h
  · exact Or.inl (Host.Outcome.next.inj h).symm
  · exact Or.inr (Host.Outcome.next.inj h).symm

theorem execWkpV_next_cases (o : GroupV) (s t : State) (h : execWkpV o s = .next t) :
    t = s ∨ ∃ b, t = (s.writeV o.x b).advance := by
  rw [execWkpV_eq] at h
  split at h
  · exact Or.inl (Host.Outcome.next.inj h).symm
  · exact Or.inr ⟨_, (Host.Outcome.next.inj h).symm⟩

theorem storeBytesAtI_next_cases (bs : List Byte) (s t : State) (h : storeBytesAtI bs s = .next t) :
    t = s.latchFault .invalidAddress ∨ ∃ m, t = State.advance { s with mem := m } := by
  by_cases hin : InBounds s.i.toNat bs.length
  · obtain ⟨m, hm, -⟩ := storeBytesAtI_of_in bs s hin
    exact Or.inr ⟨m, Host.Outcome.next.inj (h.symm.trans hm)⟩
  · exact Or.inl (Host.Outcome.next.inj (h.symm.trans (storeBytesAtI_of_out bs s hin)))

theorem execMovVM_next_cases (o : GroupV) (s t : State) (h : execMovVM o s = .next t) :
    t = s.latchFault .invalidAddress ∨ ∃ bs, bs.length = o.x.toNat + 1 ∧ t = (s.loadRegs bs).advance := by
  rw [execMovVM_eq] at h
  split at h
  · exact Or.inr ⟨_, by simp, (Host.Outcome.next.inj h).symm⟩
  · exact Or.inl (Host.Outcome.next.inj h).symm

theorem execDrwVVN_next_cases (o : GroupVVN) (s t : State) (h : execDrwVVN o s = .next t) :
    t = s.latchFault .invalidAddress ∨ ∃ x0 y0 rows, t = s.drawSprite x0 y0 rows := by
  rw [execDrwVVN_eq] at h
  split at h
  · exact Or.inr ⟨_, _, _, (Host.Outcome.next.inj h).symm⟩
  · exact Or.inl (Host.Outcome.next.inj h).symm

/-! ## The frame of the execute routines -/

theorem storeBytesAtI_onlyChanges (bs : List Byte) (s t : State) (h : storeBytesAtI bs s = .next t) :
    OnlyChanges [.pc, .mem, .fault] s t := by
  obtain rfl | ⟨m, rfl⟩ := storeBytesAtI_next_cases bs s t h
  · exact (OnlyChanges.refl _ s).latchFault _
  · exact ((OnlyChanges.refl _ s).set_mem m).advance

/-- Settles O23, by the instruction: each routine's end is a chain of updates of listed elements. -/
theorem execChangesOnlyListedElements : Obligations.ExecChangesOnlyListedElements := by
  intro i s t h
  have hs := OnlyChanges.refl (instrWrites i) s
  cases i with
  | cls =>
    obtain rfl := Host.Outcome.next.inj h
    exact (hs.set_disp _).advance
  | ret =>
    obtain rfl | ⟨w, n, rfl⟩ := execRet_next_cases s t h
    · exact hs.latchFault _
    · exact (hs.set_pc w).set_sp n
  | callA o =>
    obtain rfl | ⟨st, n, w, rfl⟩ := execCallA_next_cases o s t h
    · exact hs.latchFault _
    · exact ((hs.set_stack st).set_sp n).set_pc w
  | sysA o =>
    obtain rfl := Host.Outcome.next.inj h
    exact hs.latchFault _
  | jmpA o | jmpV0A o =>
    obtain rfl := Host.Outcome.next.inj h
    exact hs.jump _
  | skpV o | sknpV o | seqVV o | sneVV o | seqVB o | sneVB o =>
    obtain rfl := Host.Outcome.next.inj h
    exact hs.skipIf _
  | movVDT o | movVV o | orVV o | andVV o | xorVV o | movVB o | addVB o =>
    obtain rfl := Host.Outcome.next.inj h
    exact (hs.writeV _ _).advance
  | addVV o | subVV o | shrVV o | subnVV o | shlVV o =>
    obtain rfl := Host.Outcome.next.inj h
    exact (hs.writeFlagThenResult _ _ _).advance
  | rndVB o =>
    obtain rfl := Host.Outcome.next.inj h
    exact (hs.drawn.writeV _ _).advance
  | wkpV o =>
    obtain rfl | ⟨b, rfl⟩ := execWkpV_next_cases o s t h
    · exact hs
    · exact (hs.writeV _ b).advance
  | movDTV o =>
    obtain rfl := Host.Outcome.next.inj h
    exact (hs.set_dt _).advance
  | movSTV o =>
    obtain rfl := Host.Outcome.next.inj h
    exact (hs.set_st _).advance
  | movIA o | addIV o =>
    obtain rfl := Host.Outcome.next.inj h
    exact (hs.writeI _).advance
  | fontV o =>
    obtain rfl | rfl := execFontV_next_cases o s t h
    · exact hs.latchFault _
    · exact (hs.writeI _).advance
  | bcdV o | movMV o => exact storeBytesAtI_onlyChanges _ s t h
  | movVM o =>
    obtain rfl | ⟨bs, -, rfl⟩ := execMovVM_next_cases o s t h
    · exact hs.latchFault _
    · exact (hs.loadRegs bs).advance
  | drwVVN o =>
    obtain rfl | ⟨x0, y0, rows, rfl⟩ := execDrwVVN_next_cases o s t h
    · exact hs.latchFault _
    · exact hs.drawSprite x0 y0 rows

/-! ## Registers after an instruction -/

theorem State.readV_loadRegs_of_length_le (s : State) (bs : List Byte) (k : Nibble) (h : bs.length ≤ k.toNat) :
    (s.loadRegs bs).readV k = s.readV k := by
  rw [State.readV_loadRegs, List.getElem?_eq_none h, Option.getD_none]

theorem State.readV_drawSprite_of_ne_vf (s : State) (x0 y0 : Nat) (rows : List Byte) (k : Nibble) (h : k ≠ vf) :
    (s.drawSprite x0 y0 rows).readV k = s.readV k := by
  rw [State.drawSprite, State.advance_readV, State.readV_writeV_of_ne _ _ _ _ h]
  rfl

/-- Settles O24: an instruction that does not list the registers leaves them all alone (O23); each of the others writes its
destination, and the flag-setting ones VF. -/
theorem onlyDestinationsAndFlagsChange : Obligations.OnlyDestinationsAndFlagsChange := by
  intro i s t k h hdest hflag
  have frame := execChangesOnlyListedElements i s t h
  cases i with
  | cls | ret | skpV o | sknpV o | movDTV o | movSTV o | addIV o | fontV o | bcdV o | movMV o | seqVV o | sneVV o | sysA o
  | jmpA o | callA o | seqVB o | sneVB o | movIA o | jmpV0A o =>
    exact frame .v (by simp [instrWrites]) k
  | movVDT o | movVV o | orVV o | andVV o | xorVV o | movVB o | addVB o | rndVB o =>
    have hx : k ≠ o.x := by simpa [isDestination] using hdest
    obtain rfl := Host.Outcome.next.inj h
    exact State.readV_writeV_of_ne _ _ _ _ hx
  | addVV o | subVV o | shrVV o | subnVV o | shlVV o =>
    have hx : k ≠ o.x := by simpa [isDestination] using hdest
    have hf : k ≠ vf := by simpa [flagSetting, vf] using hflag
    obtain rfl := Host.Outcome.next.inj h
    exact State.readV_writeFlagThenResult_of_ne _ _ _ _ _ hx hf
  | wkpV o =>
    have hx : k ≠ o.x := by simpa [isDestination] using hdest
    obtain rfl | ⟨b, rfl⟩ := execWkpV_next_cases o s t h
    · rfl
    · exact State.readV_writeV_of_ne _ _ _ _ hx
  | movVM o =>
    have hx : o.x.toNat < k.toNat := by simpa [isDestination] using hdest
    obtain rfl | ⟨bs, hlen, rfl⟩ := execMovVM_next_cases o s t h
    · rfl
    · exact State.readV_loadRegs_of_length_le s bs k (by omega)
  | drwVVN o =>
    have hf : k ≠ vf := by simpa [flagSetting, vf] using hflag
    obtain rfl | ⟨x0, y0, rows, rfl⟩ := execDrwVVN_next_cases o s t h
    · rfl
    · exact State.readV_drawSprite_of_ne_vf s x0 y0 rows k hf

/-! ## Reset (10_state.md R30) -/

theorem Memory.unlisted_font (k : Nat) (h : k < 80) : Memory.unlisted (0x100 + k) = Config.fontRom[k] := by
  rw [Memory.unlisted, dif_pos (by omega)]
  simp

theorem Memory.unlisted_of_not_font (a : Nat) (h : ¬(0x100 ≤ a ∧ a < 0x150)) : Memory.unlisted a = 0 := dif_neg h

theorem State.reset_mem_read (a : Nat) (h : a < 4096) : State.reset.mem.read a = some (Memory.unlisted a) :=
  Memory.read_of_lt _ a h

theorem State.reset_readV (k : Nibble) : State.reset.readV k = 0 := by
  simp [State.reset, State.readV]

/-- Settles O18: reset memory lists nothing, so every address reads as unlisted; the other values are the fields of the record. -/
theorem resetValues : Obligations.ResetValues := by
  refine ⟨State.reset_readV, rfl, rfl, rfl, rfl, ?noFont, ?font, ?stack, rfl, rfl, Display.pixel_dark,
    rfl, rfl, rfl, rfl, rfl, rfl⟩
  case noFont =>
    intro a ha hfont
    rw [State.reset_mem_read a ha, Memory.unlisted_of_not_font a hfont]
  case font =>
    intro k hk
    rw [State.reset_mem_read _ (by omega), Memory.unlisted_font k hk]
  case stack =>
    intro k hk
    simp [State.reset]

/-- Settles O19: reset memory lists nothing, and both accumulators are zero. -/
theorem resetHoldsInvariants : Obligations.ResetHoldsInvariants :=
  ⟨⟨Memory.wf_reset, rfl⟩, ⟨Nat.zero_le _, Nat.zero_le _⟩⟩

/-! ## The key diff (10_state.md R19) -/

theorem pressedSince_getLsbD (before after : Word) (k : Nat) (h : k < 16) :
    (pressedSince before after).getLsbD k = (after.getLsbD k && !before.getLsbD k) := by
  simp [pressedSince, h]

theorem releasedSince_eq_pressedSince (before after : Word) : releasedSince before after = pressedSince after before := rfl

/-- Settles O58: the released keys are those pressed in the diff taken backwards. -/
theorem keyDiff : Obligations.KeyDiff := by
  intro before after k hk
  rw [releasedSince_eq_pressedSince, pressedSince_getLsbD _ _ k hk, pressedSince_getLsbD _ _ k hk]
  simp [and_comm]

/-! ## Host writes (10_state.md R27) -/

/-- The one-byte image load that a host's memory write is. -/
theorem State.loadImage_singleton (s : State) (a : Nat) (b : Byte) (h : a < 4096) :
    s.loadImage a [b] = some { s with mem := s.mem.store a b } := by
  have hin : InBounds a 1 := h
  simp [State.loadImage, Memory.writeBytes, Memory.write, hin]

/-- Settles O60, element by element. -/
theorem hostWritesAnyValueOfTheWidth : Obligations.HostWritesAnyValueOfTheWidth := by
  intro s
  have hs (es : List Elem) := OnlyChanges.refl es s
  refine ⟨?fault, ?pc, ?v, ?i, ?dt, ?st, ?mem, ?stack, ?sp, ?keys, ?pixel, ?rate⟩
  case fault =>
    exact fun v type addr => ⟨_, rfl, rfl, rfl, rfl, (hs _).set_fault _, fun hv => step_of_stopped _ hv⟩
  case pc => exact fun w => ⟨_, rfl, rfl, (hs _).jump w⟩
  case v =>
    exact fun x b => ⟨_, rfl, State.readV_writeV_self s x b, fun k hk => State.readV_writeV_of_ne s x k b hk,
      (hs _).writeV x b⟩
  case i => exact fun w => ⟨_, rfl, rfl, (hs _).writeI w⟩
  case dt => exact fun b => ⟨_, rfl, rfl, (hs _).set_dt b⟩
  case st => exact fun b => ⟨_, rfl, rfl, (hs _).set_st b⟩
  case mem =>
    intro a b ha
    refine ⟨_, State.loadImage_singleton s a b ha, ?_, ?_, (hs _).set_mem _⟩
    · rw [Memory.read_of_lt _ a ha, Memory.lookup_store_self]
    · exact fun c hc => Memory.read_congr _ _ c (Memory.lookup_store_of_ne s.mem a c b (by omega))
  case stack =>
    refine fun k w => ⟨_, rfl, Vector.getElem_set_self _, fun j hj => ?_, (hs _).set_stack _⟩
    exact Vector.getElem_set_ne k.isLt j.isLt fun e => hj (Fin.ext e.symm)
  case sp => exact fun n => ⟨_, rfl, rfl, (hs _).set_sp n⟩
  case keys => exact fun w => ⟨_, rfl, rfl, (hs _).set_keys w⟩
  case pixel =>
    exact fun x y b => ⟨_, rfl, Display.pixel_setPixel_self s.disp x y b x.isLt y.isLt,
      fun x' y' hne => Display.pixel_setPixel_of_ne s.disp x y x' y' b hne, (hs _).set_disp _⟩
  case rate => exact fun r => ⟨_, rfl, rfl, (hs _).set_masterClockRate r⟩

end Sys2Proof.Machine

/-! # Memory, placing code, and the invariants of a run (20_memory.md R41, R44, R48, R50, R53) -/

namespace Sys2Proof.Machine

/-! ## Words as two bytes (20_memory.md R41) -/

theorem joinBytes_extractLsb' (w : Word) : joinBytes (w.extractLsb' 8 8) (w.extractLsb' 0 8) = w := by
  rw [joinBytes, BitVec.extractLsb'_append_extractLsb'_eq_extractLsb' (by rfl)]
  exact BitVec.extractLsb'_eq_self

theorem decode_wordBytes (w : Word) (i : Instr) (h : decodeWord w = some i) : decode (wordBytes w) = .ok (i, []) := by
  simp only [decode, wordBytes, joinBytes_extractLsb', h]

/-- The number of a word, cut to 16 bits, is that word: what a table row of 16 bits stands for. -/
theorem ofNat_toNat_mod (w : Word) : BitVec.ofNat 16 (w.toNat % 2 ^ 16) = w := by
  rw [Nat.mod_eq_of_lt w.isLt, BitVec.ofNat_toNat, BitVec.setWidth_eq]

theorem decodeTableWord_toNat (w : Word) (i : Instr) (h : decodeWord w = some i) : decodeTableWord 16 w.toNat = some i := by
  rw [decodeTableWord, ofNat_toNat_mod, decode_wordBytes w i h]

/-! ## The placed word and the cycle that runs it (40_cycle.md R90, R92) -/

theorem State.withFetchWord_toNat (s : State) (w : Word) : s.withFetchWord 16 w.toNat = s.placeWord w := by
  rw [State.withFetchWord, ofNat_toNat_mod]

@[simp] theorem State.placeWord_fault (s : State) (w : Word) : (s.placeWord w).fault = s.fault := by
  unfold State.placeWord
  split <;> rfl

@[simp] theorem State.placeWord_pc (s : State) (w : Word) : (s.placeWord w).pc = s.pc := by
  unfold State.placeWord
  split <;> rfl

/-- A word placed inside memory stands big-endian at `pc`. -/
theorem State.lookup_placeWord (s : State) (w : Word) (h : s.pc.toNat + 2 ≤ 4096) :
    (s.placeWord w).mem.lookup s.pc.toNat = w.extractLsb' 8 8 ∧
      (s.placeWord w).mem.lookup (s.pc.toNat + 1) = w.extractLsb' 0 8 := by
  obtain ⟨m, hm, hin, -⟩ := Memory.writeBytes_spec (wordBytes w) s.mem s.pc.toNat h
  rw [State.placeWord, hm]
  exact ⟨hin 0 (by simp [wordBytes]), hin 1 (by simp [wordBytes])⟩

theorem State.fetch_placeWord (s : State) (w : Word) (h : s.pc.toNat + 2 ≤ 4096) : (s.placeWord w).fetch = some w := by
  obtain ⟨hhi, hlo⟩ := s.lookup_placeWord w h
  rw [State.fetch_of_in _ (by rwa [State.placeWord_pc]), State.placeWord_pc, hhi, hlo, joinBytes_extractLsb']

theorem step_of_fetch (s : State) (w : Word) (i : Instr) (hs : s.Running) (hf : s.fetch = some w) (hd : decodeWord w = some i) :
    step s = finishCycle (exec i s) := by
  rw [step, if_neg (by simp [hs]), hf]
  simp only [hd]

/-- Settles O7: the next fetch reads the placed word back, and placing it leaves the latch clear. -/
theorem placedWordIsTheOneExecuted : Obligations.PlacedWordIsTheOneExecuted := by
  intro s w i hs hpc hd
  refine ⟨decodeTableWord_toNat w i hd, ?_⟩
  rw [State.withFetchWord_toNat]
  have hrun : (s.placeWord w).Running := by rwa [State.Running, State.placeWord_fault]
  exact step_of_fetch _ w i hrun (s.fetch_placeWord w (by omega)) hd

/-! ## Transfers at `I` (20_memory.md R44, R50) -/

@[simp] theorem bcdDigits_length (b : Byte) : (bcdDigits b).length = 3 := rfl

/-- Settles O25: all four routines go through the two operations on bytes at `I`, which test the range first. -/
theorem outOfBoundsTransferFaults : Obligations.OutOfBoundsTransferFaults := by
  intro s x y n
  refine ⟨?bcd, ?bulk, ?drw⟩
  case bcd =>
    intro h
    exact storeBytesAtI_of_out _ s (by rw [bcdDigits_length]; exact Nat.not_le.mpr h)
  case bulk =>
    intro h
    constructor
    · exact storeBytesAtI_of_out _ s (by rw [State.firstRegs_length]; exact Nat.not_le.mpr h)
    · exact (execMovVM_eq ⟨x⟩ s).trans (if_neg (Nat.not_le.mpr h))
  case drw =>
    intro h
    exact (execDrwVVN_eq ⟨x, y, n⟩ s).trans (if_neg (Nat.not_le.mpr h))

/-- A bulk store inside memory leaves register `k` at `I + k`. -/
theorem lookup_of_execMovMV (o : GroupV) (s t : State) (h : s.i.toNat + (o.x.toNat + 1) ≤ 4096) (ht : execMovMV o s = .next t)
    (k : Nibble) (hk : k.toNat ≤ o.x.toNat) : t.mem.lookup (s.i.toNat + k.toNat) = s.readV k := by
  have hlen := s.firstRegs_length o.x
  obtain ⟨m, hm, hin, -⟩ := storeBytesAtI_of_in (s.firstRegs o.x) s (by rw [hlen]; exact h)
  obtain rfl := Host.Outcome.next.inj (ht.symm.trans hm)
  exact (hin k.toNat (by omega)).trans (s.firstRegs_getElem o.x k _)

/-- Settles O48: the fetch at `I` joins the bytes at `I` and `I + 1`, which the store made V0 and V1. -/
theorem fetchSeesStoredBytes : Obligations.FetchSeesStoredBytes := by
  intro o s t hx hin ht
  have h0 : t.mem.lookup s.i.toNat = s.readV 0 := lookup_of_execMovMV o s t hin ht 0 (Nat.zero_le _)
  have h1 : t.mem.lookup (s.i.toNat + 1) = s.readV 1 := lookup_of_execMovMV o s t hin ht 1 hx
  rw [State.fetch_of_in _ (by rw [State.jump_pc]; omega), State.jump_pc, State.jump_mem, h0, h1, joinBytes]

/-! ## The image loader (20_memory.md R53) -/

/-- Loading an image that fits changes exactly its bytes; memory keeps its canonical form. -/
theorem State.loadImage_of_in (s : State) (a : Nat) (image : List Byte) (h : InBounds a image.length) :
    ∃ m, s.loadImage a image = some { s with mem := m } ∧
      (∀ k (hk : k < image.length), m.lookup (a + k) = image[k]) ∧
      (∀ b, b < a ∨ a + image.length ≤ b → m.lookup b = s.mem.lookup b) ∧ (s.mem.wf → m.wf) := by
  obtain ⟨m, hm, hin, hout⟩ := Memory.writeBytes_spec image s.mem a h
  refine ⟨m, ?_, hin, hout, fun hw => Memory.wf_writeBytes image s.mem m a hw hm⟩
  rw [State.loadImage, if_pos h, hm]

theorem State.loadImage_of_out (s : State) (a : Nat) (image : List Byte) (h : ¬InBounds a image.length) :
    s.loadImage a image = none := if_neg h

/-- Settles O57: an image that fits goes in as one run of checked writes; one that does not is turned away before the first. -/
theorem loaderCopiesOrFails : Obligations.LoaderCopiesOrFails := by
  intro s a image
  constructor
  · intro h
    obtain ⟨m, hm, hin, hout, -⟩ := s.loadImage_of_in a image h
    refine ⟨_, hm, fun k hk => ?_, fun b hb => ?_, (OnlyChanges.refl _ s).set_mem m⟩
    · rw [Memory.read_of_lt _ _ (by omega), hin k hk]
    · exact Memory.read_congr _ _ b (hout b hb)
  · intro h
    exact s.loadImage_of_out a image (by omega)

/-! ## The canonical form of memory, and the accumulators (20_memory.md R48, 60_exceptions.md R182) -/

theorem storeBytesAtI_keeps_wf (bs : List Byte) (s t : State) (hw : s.mem.wf) (h : storeBytesAtI bs s = .next t) : t.mem.wf := by
  by_cases hin : InBounds s.i.toNat bs.length
  · obtain ⟨m, hm, -, -, hwf⟩ := storeBytesAtI_of_in bs s hin
    obtain rfl := Host.Outcome.next.inj (h.symm.trans hm)
    exact hwf hw
  · obtain rfl := Host.Outcome.next.inj (h.symm.trans (storeBytesAtI_of_out bs s hin))
    exact hw

/-- An instruction that may not write memory leaves the very list that holds it, not only what the list reads as. -/
theorem exec_mem_of_not_listed (i : Instr) (s t : State) (h : exec i s = .next t) (hm : Elem.mem ∉ instrWrites i) :
    t.mem = s.mem := by
  cases i with
  | bcdV o | movMV o => simp [instrWrites] at hm
  | ret => obtain rfl | ⟨w, n, rfl⟩ := execRet_next_cases s t h <;> rfl
  | callA o => obtain rfl | ⟨st, n, w, rfl⟩ := execCallA_next_cases o s t h <;> rfl
  | fontV o => obtain rfl | rfl := execFontV_next_cases o s t h <;> rfl
  | wkpV o => obtain rfl | ⟨b, rfl⟩ := execWkpV_next_cases o s t h <;> rfl
  | movVM o => obtain rfl | ⟨bs, -, rfl⟩ := execMovVM_next_cases o s t h <;> rfl
  | drwVVN o => obtain rfl | ⟨x0, y0, rows, rfl⟩ := execDrwVVN_next_cases o s t h <;> rfl
  | _ =>
    obtain rfl := Host.Outcome.next.inj h
    rfl

theorem exec_keeps_wf (i : Instr) (s t : State) (hw : s.mem.wf) (h : exec i s = .next t) : t.mem.wf := by
  by_cases hm : Elem.mem ∈ instrWrites i
  · cases i with
    | bcdV o | movMV o => exact storeBytesAtI_keeps_wf _ s t hw h
    | _ => simp [instrWrites] at hm
  · rw [exec_mem_of_not_listed i s t h hm]
    exact hw

/-- No routine writes an accumulator (O23), so the two stay equal. -/
theorem exec_keeps_inv (s t : State) (i : Instr) (hs : s.Inv) (h : exec i s = .next t) : t.Inv := by
  have frame := execChangesOnlyListedElements i s t h
  have hdt : t.dtAcc = s.dtAcc := frame .dtAcc (by cases i <;> simp [instrWrites])
  have hst : t.stAcc = s.stAcc := frame .stAcc (by cases i <;> simp [instrWrites])
  exact ⟨exec_keeps_wf i s t hs.mem h, by rw [hdt, hst, hs.accs]⟩

theorem timerTick_keeps_inv (s : State) (hs : s.Inv) : s.timerTick.Inv :=
  ⟨hs.mem, by rw [State.timerTick_dtAcc, State.timerTick_stAcc, hs.accs]⟩

theorem step_keeps_inv (s t : State) (hs : s.Inv) (h : step s = .next t) : t.Inv := by
  obtain ⟨-, rfl⟩ | ⟨-, -, rfl⟩ | ⟨-, -, -, rfl⟩ | ⟨-, i, u, -, hu, rfl⟩ := step_next_cases s t h
  · exact hs
  · exact ⟨hs.mem, hs.accs⟩
  · exact ⟨hs.mem, hs.accs⟩
  · have hInv : u.Inv := exec_keeps_inv s u i hs hu
    split
    · exact hInv
    · exact timerTick_keeps_inv u hInv

theorem loadImage_keeps_inv (s t : State) (a : Nat) (image : List Byte) (hs : s.Inv) (h : s.loadImage a image = some t) :
    t.Inv := by
  by_cases hin : InBounds a image.length
  · obtain ⟨m, hm, -, -, hwf⟩ := s.loadImage_of_in a image hin
    obtain rfl := Option.some.inj (h.symm.trans hm)
    exact ⟨hwf hs.mem, hs.accs⟩
  · rw [s.loadImage_of_out a image hin] at h
    cases h

theorem hostAction_keeps_inv (a : HostAction) (s t : State) (hs : s.Inv) (h : a.apply s = some t) : t.Inv := by
  cases a with
  | reset =>
    obtain rfl := Option.some.inj h
    exact ⟨Memory.wf_reset, rfl⟩
  | writeMem a b => exact loadImage_keeps_inv s t a [b] hs h
  | loadImage a image => exact loadImage_keeps_inv s t a image hs h
  | loadProgram image => exact loadImage_keeps_inv s t programBase image hs h
  | _ =>
    obtain rfl := Option.some.inj h
    exact ⟨hs.mem, hs.accs⟩

/-- Settles O22, by induction on the run. -/
theorem reachableStatesHoldInvariants : Obligations.ReachableStatesHoldInvariants := by
  intro s hs
  induction hs with
  | reset => exact resetHoldsInvariants.1
  | cycle s t _ h ih => exact step_keeps_inv s t ih h
  | host a s t _ h ih => exact hostAction_keeps_inv a s t ih h

end Sys2Proof.Machine

/-! # Decoding and encoding (30_encoding.md R61 to R72) -/

namespace Sys2Proof.Laws

/-! ## The bit codecs (R61, R62) -/

theorem mask_toNat (c : Codec) (h : c.width ≤ 16) : c.mask.toNat = 2 ^ c.width - 1 := by
  have := Nat.pow_le_pow_right (n := 2) (by decide) h
  have := Nat.two_pow_pos c.width
  rw [Codec.mask, BitVec.toNat_ofNat, Nat.mod_eq_of_lt (by omega)]

theorem extract_toNat (c : Codec) (w : Word) (h : c.width ≤ 16) :
    (c.extract w).toNat = w.toNat / 2 ^ c.offset % 2 ^ c.width := by
  rw [Codec.extract, BitVec.toNat_and, mask_toNat c h, BitVec.toNat_ushiftRight, Nat.and_two_pow_sub_one_eq_mod,
    Nat.shiftRight_eq_div_pow]

/-- The codec's law (R62). -/
theorem extract_place (c : Codec) (f : Word) (h : c.width + c.offset ≤ 16) : c.extract (c.place f) = f &&& c.mask := by
  apply BitVec.eq_of_toNat_eq
  rw [extract_toNat c _ (by omega), place_toNat c f h, Nat.mul_div_cancel _ (Nat.two_pow_pos _), Nat.mod_mod,
    BitVec.toNat_and, mask_toNat c (by omega), Nat.and_two_pow_sub_one_eq_mod]

/-- The codec's law the other way round: placing what was extracted keeps the word's bits in the field. -/
theorem place_extract (c : Codec) (w : Word) : c.place (c.extract w) = w &&& (c.mask <<< c.offset) := by
  rw [Codec.place, Codec.extract, BitVec.and_assoc, BitVec.and_self]
  ext k hk
  by_cases h : k < c.offset
  · simp [h]
  · simp [h, Nat.add_sub_cancel' (Nat.le_of_not_lt h), BitVec.getLsbD_eq_getElem hk]

/-- Every codec of R61 lies inside the word. -/
theorem codec_fits : ∀ c ∈ [addressCodec, byteCodec, vxCodec, vyCodec, nibbleCodec], c.width + c.offset ≤ 16 := by decide

/-- Settles O5: the laws above, for codecs that lie inside the word. -/
theorem codecContract : Obligations.CodecContract := by
  intro c hc w
  have h := codec_fits c hc
  exact ⟨extract_toNat c w (by omega), place_toNat c w h, extract_place c w h, mask_toNat c (by omega)⟩

/-! ## The operand groups (R63) -/

/-- A field as wide as its codec loses nothing between extracting and placing. -/
theorem place_setWidth_extract (c : Codec) (w : Word) (h : c.width ≤ 16) :
    c.place (((c.extract w).setWidth c.width).setWidth 16) = w &&& (c.mask <<< c.offset) := by
  have hlt : (c.extract w).toNat < 2 ^ c.width := by
    rw [extract_toNat c w h]
    exact Nat.mod_lt _ (Nat.two_pow_pos _)
  rw [← place_extract]
  congr 1
  apply BitVec.eq_of_toNat_eq
  rw [BitVec.toNat_setWidth, BitVec.toNat_setWidth, Nat.mod_eq_of_lt hlt, Nat.mod_eq_of_lt (BitVec.isLt _)]

theorem GroupVVN_encode_toNat (o : GroupVVN) : o.encode.toNat = 0x100 * o.x.toNat + 0x10 * o.y.toNat + o.n.toNat := by
  have := o.x.isLt
  have := o.y.isLt
  have := o.n.isLt
  rw [GroupVVN.encode, or_toNat, or_toNat _ _ (place_and_place _ _ _ _ (by decide)), place_toNat _ _ (by decide),
    place_toNat _ _ (by decide), place_toNat _ _ (by decide)]
  · simp only [vxCodec, vyCodec, nibbleCodec, BitVec.toNat_setWidth]
    omega
  · rw [or_and_distrib, place_and_place _ _ _ _ (by decide), place_and_place _ _ _ _ (by decide), BitVec.or_zero]

/-- A field that a word holds at its codec's place is what the codec extracts. -/
theorem setWidth_extract_of_toNat (c : Codec) (w : Word) (f : BitVec c.width) (h : c.width ≤ 16)
    (hf : w.toNat / 2 ^ c.offset % 2 ^ c.width = f.toNat) : (c.extract w).setWidth c.width = f := by
  apply BitVec.eq_of_toNat_eq
  rw [BitVec.toNat_setWidth, extract_toNat c w h, Nat.mod_mod, hf]

theorem vx_of_toNat {w : Word} {x : Nibble} (h : w.toNat / 0x100 % 0x10 = x.toNat) : (vxCodec.extract w).setWidth 4 = x :=
  setWidth_extract_of_toNat vxCodec w x (by decide) h

theorem vy_of_toNat {w : Word} {y : Nibble} (h : w.toNat / 0x10 % 0x10 = y.toNat) : (vyCodec.extract w).setWidth 4 = y :=
  setWidth_extract_of_toNat vyCodec w y (by decide) h

/-- A group's two functions are inverse to each other on the bits outside its level's mask. -/
structure InverseOutside {G : Type} (dec : Word → G) (enc : G → Word) (mask : Word) : Prop where
  dec_enc : ∀ o, dec (enc o) = o
  enc_dec : ∀ w, enc (dec w) = w &&& ~~~mask

theorem groupA_inverse : InverseOutside GroupA.decode GroupA.encode levelMask4 where
  dec_enc o := by
    have := o.nnn.isLt
    have hsum := GroupA_encode_toNat o
    have hn := setWidth_extract_of_toNat addressCodec o.encode o.nnn (by decide) (by simp only [addressCodec]; omega)
    exact congrArg GroupA.mk hn
  enc_dec w := place_setWidth_extract addressCodec w (by decide)

theorem groupV_inverse : InverseOutside GroupV.decode GroupV.encode levelMask2 where
  dec_enc o := by
    have hsum := GroupV_encode_toNat o
    exact congrArg GroupV.mk (vx_of_toNat (by omega))
  enc_dec w := place_setWidth_extract vxCodec w (by decide)

theorem groupVB_inverse : InverseOutside GroupVB.decode GroupVB.encode levelMask4 where
  dec_enc o := by
    have := o.kk.isLt
    have hsum := GroupVB_encode_toNat o
    have hk := setWidth_extract_of_toNat byteCodec o.encode o.kk (by decide) (by simp only [byteCodec]; omega)
    exact congrArg₂ GroupVB.mk (vx_of_toNat (by omega)) hk
  enc_dec w := by
    have hx := place_setWidth_extract vxCodec w (by decide)
    have hk := place_setWidth_extract byteCodec w (by decide)
    exact (congrArg₂ (· ||| ·) hx hk).trans BitVec.and_or_distrib_left.symm

theorem groupVV_inverse : InverseOutside GroupVV.decode GroupVV.encode levelMask3 where
  dec_enc o := by
    have := o.y.isLt
    have hsum := GroupVV_encode_toNat o
    exact congrArg₂ GroupVV.mk (vx_of_toNat (by omega)) (vy_of_toNat (by omega))
  enc_dec w := by
    have hx := place_setWidth_extract vxCodec w (by decide)
    have hy := place_setWidth_extract vyCodec w (by decide)
    exact (congrArg₂ (· ||| ·) hx hy).trans BitVec.and_or_distrib_left.symm

theorem groupVVN_inverse : InverseOutside GroupVVN.decode GroupVVN.encode levelMask4 where
  dec_enc o := by
    have := o.y.isLt
    have := o.n.isLt
    have hsum := GroupVVN_encode_toNat o
    have hn := setWidth_extract_of_toNat nibbleCodec o.encode o.n (by decide) (by simp only [nibbleCodec]; omega)
    exact congr (congrArg₂ GroupVVN.mk (vx_of_toNat (by omega)) (vy_of_toNat (by omega))) hn
  enc_dec w := by
    have hx := place_setWidth_extract vxCodec w (by decide)
    have hy := place_setWidth_extract vyCodec w (by decide)
    have hn := place_setWidth_extract nibbleCodec w (by decide)
    refine (congrArg₂ (· ||| ·) (congrArg₂ (· ||| ·) hx hy) hn).trans ?_
    rw [← BitVec.and_or_distrib_left, ← BitVec.and_or_distrib_left]
    rfl

/-! ## The rows of the tables (R64, R66 to R69) -/

theorem level2_encode : ∀ row ∈ level2, ∀ o, encode (row.2 o) = row.1 ||| o.encode := by
  intro row hrow o
  fin_cases hrow <;> rfl

theorem level3_encode : ∀ row ∈ level3, ∀ o, encode (row.2 o) = row.1 ||| o.encode := by
  intro row hrow o
  fin_cases hrow <;> rfl

/-- Level 4's rows differ in their groups, but every group's operand bits are all those outside the mask. -/
theorem level4_encode : ∀ row ∈ level4, ∀ w, encode (row.2 w) = row.1 ||| (w &&& ~~~levelMask4) := by
  intro row hrow w
  fin_cases hrow <;>
    simp only [encode, Instr.matchValue, Instr.operandBits, groupA_inverse.enc_dec, groupVB_inverse.enc_dec,
      groupVVN_inverse.enc_dec]

theorem level1_encode : ∀ row ∈ level1, encode row.2 = row.1 := by decide

theorem level2_pattern : ∀ row ∈ level2, row.1 &&& levelMask2 = row.1 := by decide

theorem level3_pattern : ∀ row ∈ level3, row.1 &&& levelMask3 = row.1 := by decide

theorem level4_pattern : ∀ row ∈ level4, row.1 &&& levelMask4 = row.1 := by decide

/-! ## Looking up a row -/

theorem lookupRow_eq_lookup {α : Type} (key : Word) (rows : List (Word × α)) : lookupRow key rows = rows.lookup key := by
  induction rows with
  | nil => rfl
  | cons row rows ih =>
    rw [lookupRow, List.lookup_cons, ih]
    by_cases h : key = row.1
    · rw [if_pos h, beq_iff_eq.mpr h]
    · rw [if_neg h, beq_eq_false_iff_ne.mpr h]

theorem mem_of_lookupRow {α : Type} {key : Word} {rows : List (Word × α)} {a : α} (h : lookupRow key rows = some a) :
    (key, a) ∈ rows := by
  rw [lookupRow_eq_lookup] at h
  obtain ⟨before, after, rfl, -⟩ := List.lookup_eq_some_iff.mp h
  exact List.mem_append_right _ List.mem_cons_self

theorem lookupRow_eq_none_iff {α : Type} {key : Word} {rows : List (Word × α)} :
    lookupRow key rows = none ↔ ∀ row ∈ rows, key ≠ row.1 := by
  simp only [lookupRow_eq_lookup, List.lookup_eq_none_iff, bne_iff_ne]

theorem lookupRow_of_mem {α : Type} {key : Word} {rows : List (Word × α)} {a : α}
    (hd : rows.Pairwise fun row row' => row.1 ≠ row'.1) (h : (key, a) ∈ rows) : lookupRow key rows = some a := by
  induction rows with
  | nil => cases h
  | cons row rows ih =>
    obtain ⟨hne, hd⟩ := List.pairwise_cons.mp hd
    obtain rfl | h := List.mem_cons.mp h
    · exact if_pos rfl
    · exact (if_neg (hne _ h).symm).trans (ih hd h)

/-- A word that a row of one level matches is matched by no level whose rows differ from it on that level's mask. -/
theorem lookupRow_eq_none_of_mem {α β : Type} {fine : List (Word × α)} {coarse : List (Word × β)} {m n w : Word} {b : β}
    (hrows : ∀ row ∈ fine, ∀ row' ∈ coarse, row.1 &&& n ≠ row'.1) (hmask : m &&& n = n) (h : (w &&& n, b) ∈ coarse) :
    lookupRow (w &&& m) fine = none := by
  rw [lookupRow_eq_none_iff]
  intro row hrow hkey
  apply hrows row hrow _ h
  rw [← hkey, BitVec.and_assoc, hmask]

/-! ## What the cascade answers (R65) -/

/-- The cascade as a chain of alternatives. -/
theorem decodeWord_eq_or (w : Word) :
    decodeWord w =
      (lookupRow (w &&& levelMask1) level1).or
      (((lookupRow (w &&& levelMask2) level2).map fun f => f (GroupV.decode w)).or
      (((lookupRow (w &&& levelMask3) level3).map fun f => f (GroupVV.decode w)).or
      ((lookupRow (w &&& levelMask4) level4).map fun f => f w))) := by
  rw [decodeWord]
  cases lookupRow (w &&& levelMask1) level1 with
  | some i => rfl
  | none =>
    cases lookupRow (w &&& levelMask2) level2 with
    | some f => rfl
    | none =>
      cases lookupRow (w &&& levelMask3) level3 with
      | some f => rfl
      | none => cases lookupRow (w &&& levelMask4) level4 <;> rfl

theorem decodeWord_eq_none_iff {w : Word} :
    decodeWord w = none ↔
      lookupRow (w &&& levelMask1) level1 = none ∧ lookupRow (w &&& levelMask2) level2 = none ∧
      lookupRow (w &&& levelMask3) level3 = none ∧ lookupRow (w &&& levelMask4) level4 = none := by
  simp only [decodeWord_eq_or, Option.or_eq_none_iff, Option.map_eq_none_iff]

/-- An answer comes from a row of one of the four levels. -/
theorem decodeWord_some_cases {w : Word} {i : Instr} (h : decodeWord w = some i) :
    (w &&& levelMask1, i) ∈ level1 ∨
    (∃ f, (w &&& levelMask2, f) ∈ level2 ∧ f (GroupV.decode w) = i) ∨
    (∃ f, (w &&& levelMask3, f) ∈ level3 ∧ f (GroupVV.decode w) = i) ∨
    (∃ f, (w &&& levelMask4, f) ∈ level4 ∧ f w = i) := by
  simp only [decodeWord_eq_or, Option.or_eq_some_iff, Option.map_eq_some_iff] at h
  obtain h | ⟨-, ⟨f, h, hi⟩ | ⟨-, ⟨f, h, hi⟩ | ⟨-, f, h, hi⟩⟩⟩ := h
  · exact .inl (mem_of_lookupRow h)
  · exact .inr (.inl ⟨f, mem_of_lookupRow h, hi⟩)
  · exact .inr (.inr (.inl ⟨f, mem_of_lookupRow h, hi⟩))
  · exact .inr (.inr (.inr ⟨f, mem_of_lookupRow h, hi⟩))

theorem decodeWord_of_mem_level2 {w : Word} {f : GroupV → Instr} (h : (w &&& levelMask2, f) ∈ level2) :
    decodeWord w = some (f (GroupV.decode w)) := by
  have h1 : lookupRow (w &&& levelMask1) level1 = none := lookupRow_eq_none_of_mem (by decide) (by decide) h
  rw [decodeWord_eq_or, h1, lookupRow_of_mem (by decide) h]
  rfl

theorem decodeWord_of_mem_level3 {w : Word} {f : GroupVV → Instr} (h : (w &&& levelMask3, f) ∈ level3) :
    decodeWord w = some (f (GroupVV.decode w)) := by
  have h1 : lookupRow (w &&& levelMask1) level1 = none := lookupRow_eq_none_of_mem (by decide) (by decide) h
  have h2 : lookupRow (w &&& levelMask2) level2 = none := lookupRow_eq_none_of_mem (by decide) (by decide) h
  rw [decodeWord_eq_or, h1, h2, lookupRow_of_mem (by decide) h]
  rfl

/-- Level 1 is excepted: its two words are also SYS words. -/
theorem decodeWord_of_mem_level4 {w : Word} {f : Word → Instr} (h1 : lookupRow (w &&& levelMask1) level1 = none)
    (h : (w &&& levelMask4, f) ∈ level4) : decodeWord w = some (f w) := by
  have h2 : lookupRow (w &&& levelMask2) level2 = none := lookupRow_eq_none_of_mem (by decide) (by decide) h
  have h3 : lookupRow (w &&& levelMask3) level3 = none := lookupRow_eq_none_of_mem (by decide) (by decide) h
  rw [decodeWord_eq_or, h1, h2, h3, lookupRow_of_mem (by decide) h]
  rfl

/-! ## Round trips (R71) -/

theorem and_or_and_not (w m : Word) : (w &&& m) ||| (w &&& ~~~m) = w := by
  rw [← BitVec.and_or_distrib_left, BitVec.or_not_self, BitVec.and_allOnes]

/-- A word is its bits under the mask and the operand read from it. -/
theorem InverseOutside.and_or_enc_dec {G : Type} {dec : Word → G} {enc : G → Word} {mask : Word}
    (h : InverseOutside dec enc mask) (w : Word) : (w &&& mask) ||| enc (dec w) = w := by
  rw [h.enc_dec, and_or_and_not]

/-- The word a matching row's instruction encodes to is the word that was matched. -/
theorem encode_of_decodeWord {w : Word} {i : Instr} (hd : decodeWord w = some i) : encode i = w := by
  obtain h | ⟨f, h, rfl⟩ | ⟨f, h, rfl⟩ | ⟨f, h, rfl⟩ := decodeWord_some_cases hd
  · exact (level1_encode _ h).trans BitVec.and_allOnes
  · exact (level2_encode _ h _).trans (groupV_inverse.and_or_enc_dec w)
  · exact (level3_encode _ h _).trans (groupVV_inverse.and_or_enc_dec w)
  · exact (level4_encode _ h w).trans (and_or_and_not w levelMask4)

theorem wellFormed_iff (i : Instr) : i.wellFormed = true ↔ i ≠ .sysA ⟨0x0E0⟩ ∧ i ≠ .sysA ⟨0x0EE⟩ := by
  cases i with
  | sysA o => cases o; simp [Instr.wellFormed]
  | _ => simp [Instr.wellFormed]

/-- The two instructions that are not well formed encode to the words of CLS and RET, so no word decodes to them. -/
theorem wellFormed_of_decodeWord {w : Word} {i : Instr} (h : decodeWord w = some i) : i.wellFormed = true := by
  have hback : decodeWord (encode i) = some i := by rwa [encode_of_decodeWord h]
  rw [wellFormed_iff]
  constructor <;> rintro rfl <;> exact absurd hback (by decide)

/-- Settles O2, from the row that answered: its match value and its group's bits make up the word. -/
theorem encodeOfDecodeIsIdentity : Obligations.EncodeOfDecodeIsIdentity :=
  fun _ _ h => ⟨encode_of_decodeWord h, wellFormed_of_decodeWord h⟩

/-- What a row's instruction encodes to has the row's match value under the mask, and the group's operand outside it. -/
theorem InverseOutside.and_mask_and_dec {G : Type} {dec : Word → G} {enc : G → Word} {mask m : Word} (h : InverseOutside dec enc mask)
    (hm : m &&& mask = m) (o : G) : (m ||| enc o) &&& mask = m ∧ dec (m ||| enc o) = o := by
  have henc : enc o = enc o &&& ~~~mask := by rw [← h.enc_dec, h.dec_enc]
  have hin : enc o &&& mask = 0#16 := by rw [henc]; simp [BitVec.and_assoc]
  have hout : m &&& ~~~mask = 0#16 := by rw [← hm]; simp [BitVec.and_assoc]
  constructor
  · rw [or_and_distrib, hm, hin, BitVec.or_zero]
  · rw [← h.dec_enc (dec _), h.enc_dec, or_and_distrib, hout, BitVec.zero_or, ← henc, h.dec_enc]

theorem decodeWord_encode_of_mem_level2 {c : GroupV → Instr} (o : GroupV) (h : ((c o).matchValue, c) ∈ level2) :
    decodeWord (encode (c o)) = some (c o) := by
  obtain ⟨hkey, hdec⟩ := groupV_inverse.and_mask_and_dec (level2_pattern _ h) o
  rw [← level2_encode _ h] at hkey hdec
  rw [decodeWord_of_mem_level2 (f := c) (hkey.symm ▸ h), hdec]

theorem decodeWord_encode_of_mem_level3 {c : GroupVV → Instr} (o : GroupVV) (h : ((c o).matchValue, c) ∈ level3) :
    decodeWord (encode (c o)) = some (c o) := by
  obtain ⟨hkey, hdec⟩ := groupVV_inverse.and_mask_and_dec (level3_pattern _ h) o
  rw [← level3_encode _ h] at hkey hdec
  rw [decodeWord_of_mem_level3 (f := c) (hkey.symm ▸ h), hdec]

/-- Level 4's row for the words of level 1 is that of SYS, with the two addresses that are not well formed (D1). -/
theorem level1_as_sys : ∀ row ∈ level1, row.1 &&& levelMask4 = 0#16 ∧ (Instr.sysA (.decode row.1)).wellFormed = false := by
  decide

/-- Only the SYS row shares words with level 1, and those give the two instructions that are not well formed. -/
theorem lookupRow_level1_of_wellFormed {w : Word} {f : Word → Instr} (h : (w &&& levelMask4, f) ∈ level4)
    (hw : (f w).wellFormed = true) : lookupRow (w &&& levelMask1) level1 = none := by
  rw [lookupRow_eq_none_iff]
  intro row hrow hkey
  obtain rfl : w = row.1 := BitVec.and_allOnes.symm.trans hkey
  obtain ⟨hzero, hill⟩ := level1_as_sys row hrow
  rw [hzero] at h
  obtain rfl : (fun w => Instr.sysA (.decode w)) = f := Option.some.inj (lookupRow_of_mem (by decide) h)
  exact absurd (hill.symm.trans hw) (by decide)

theorem decodeWord_encode_of_mem_level4 {G : Type} {dec : Word → G} {enc : G → Word} (hinv : InverseOutside dec enc levelMask4)
    {c : G → Instr} (o : G) (h : ((c o).matchValue, fun w => c (dec w)) ∈ level4) (hw : (c o).wellFormed = true) :
    decodeWord (encode (c o)) = some (c o) := by
  have henc : encode (c o) = (c o).matchValue ||| enc o := by
    have := level4_encode _ h (enc o)
    simpa only [← hinv.enc_dec, hinv.dec_enc] using this
  obtain ⟨hkey, hdec⟩ := hinv.and_mask_and_dec (level4_pattern _ h) o
  rw [← henc] at hkey hdec
  have hmem : (encode (c o) &&& levelMask4, fun w => c (dec w)) ∈ level4 := by rwa [hkey]
  rw [decodeWord_of_mem_level4 (lookupRow_level1_of_wellFormed hmem (by rwa [hdec])) hmem, hdec]

/-- Settles O1: each instruction is that of a row of its level, whose group reads back the operand that was placed. -/
theorem decodeOfEncodeIsIdentity : Obligations.DecodeOfEncodeIsIdentity := by
  intro i hw
  cases i with
  | cls | ret => decide
  | skpV o | sknpV o | movVDT o | wkpV o | movDTV o | movSTV o | addIV o | fontV o | bcdV o | movMV o | movVM o =>
    exact decodeWord_encode_of_mem_level2 o (by simp [level2, Instr.matchValue])
  | seqVV o | movVV o | orVV o | andVV o | xorVV o | addVV o | subVV o | shrVV o | subnVV o | shlVV o | sneVV o =>
    exact decodeWord_encode_of_mem_level3 o (by simp [level3, Instr.matchValue])
  | sysA o | jmpA o | callA o | movIA o | jmpV0A o =>
    exact decodeWord_encode_of_mem_level4 groupA_inverse o (by simp [level4, Instr.matchValue]) hw
  | seqVB o | sneVB o | movVB o | addVB o | rndVB o =>
    exact decodeWord_encode_of_mem_level4 groupVB_inverse o (by simp [level4, Instr.matchValue]) hw
  | drwVVN o => exact decodeWord_encode_of_mem_level4 groupVVN_inverse o (by simp [level4, Instr.matchValue]) hw

/-! ## The words without an instruction (R70, R72) -/

/-- The four bits that the masks of all levels keep. -/
def highCodec : Codec := ⟨4, 12⟩

/-- A field's bits, left in their place. -/
theorem and_field_toNat (c : Codec) (w : Word) (h : c.width + c.offset ≤ 16) :
    (w &&& (c.mask <<< c.offset)).toNat = w.toNat / 2 ^ c.offset % 2 ^ c.width * 2 ^ c.offset := by
  rw [← place_extract, place_toNat c _ h, extract_toNat c w (by omega), Nat.mod_mod]

theorem and_fields_toNat (c d : Codec) (w : Word) (hc : c.width + c.offset ≤ 16) (hd : d.width + d.offset ≤ 16)
    (h : (c.mask <<< c.offset) &&& (d.mask <<< d.offset) = 0#16) :
    (w &&& ((c.mask <<< c.offset) ||| (d.mask <<< d.offset))).toNat =
      w.toNat / 2 ^ c.offset % 2 ^ c.width * 2 ^ c.offset + w.toNat / 2 ^ d.offset % 2 ^ d.width * 2 ^ d.offset := by
  rw [BitVec.and_or_distrib_left, or_toNat, and_field_toNat c w hc, and_field_toNat d w hd]
  rw [← place_extract, ← place_extract, place_and_place c d _ _ h]

theorem and_levelMask2_toNat (w : Word) : (w &&& levelMask2).toNat = w.toNat / 4096 * 4096 + w.toNat % 256 := by
  have := w.isLt
  have hsum := and_fields_toNat highCodec byteCodec w (by decide) (by decide) (by decide)
  simp only [highCodec, byteCodec] at hsum
  exact hsum.trans (by omega)

theorem and_levelMask3_toNat (w : Word) : (w &&& levelMask3).toNat = w.toNat / 4096 * 4096 + w.toNat % 16 := by
  have := w.isLt
  have hsum := and_fields_toNat highCodec nibbleCodec w (by decide) (by decide) (by decide)
  simp only [highCodec, nibbleCodec] at hsum
  exact hsum.trans (by omega)

theorem and_levelMask4_toNat (w : Word) : (w &&& levelMask4).toNat = w.toNat / 4096 * 4096 := by
  have := w.isLt
  have hfield := and_field_toNat highCodec w (by decide)
  simp only [highCodec] at hfield
  exact hfield.trans (by omega)

/-- The words that level 2 leaves to the others. -/
theorem lookupRow_level2_eq_none_iff (w : Word) :
    lookupRow (w &&& levelMask2) level2 = none ↔
      (w.toNat / 4096 = 14 → w.toNat % 256 ≠ 0x9E ∧ w.toNat % 256 ≠ 0xA1) ∧
      (w.toNat / 4096 = 15 → w.toNat % 256 ≠ 0x07 ∧ w.toNat % 256 ≠ 0x0A ∧ w.toNat % 256 ≠ 0x15 ∧ w.toNat % 256 ≠ 0x18 ∧
        w.toNat % 256 ≠ 0x1E ∧ w.toNat % 256 ≠ 0x29 ∧ w.toNat % 256 ≠ 0x33 ∧ w.toNat % 256 ≠ 0x55 ∧ w.toNat % 256 ≠ 0x65) := by
  simp only [lookupRow_eq_none_iff, level2, List.forall_mem_cons, ← BitVec.toNat_inj, and_levelMask2_toNat,
    BitVec.reduceToNat, ne_eq, List.not_mem_nil, false_implies, implies_true, and_true]
  refine ⟨fun hne => ⟨fun h => ?_, fun h => ?_⟩, fun ⟨hE, hF⟩ => ?_⟩ <;> omega

theorem lookupRow_level3_eq_none_iff (w : Word) :
    lookupRow (w &&& levelMask3) level3 = none ↔
      (w.toNat / 4096 = 5 → w.toNat % 16 ≠ 0) ∧ (w.toNat / 4096 = 8 → 8 ≤ w.toNat % 16 ∧ w.toNat % 16 ≠ 14) ∧
      (w.toNat / 4096 = 9 → w.toNat % 16 ≠ 0) := by
  simp only [lookupRow_eq_none_iff, level3, List.forall_mem_cons, ← BitVec.toNat_inj, and_levelMask3_toNat,
    BitVec.reduceToNat, ne_eq, List.not_mem_nil, false_implies, implies_true, and_true]
  refine ⟨fun hne => ⟨fun h => ?_, fun h => ?_, fun h => ?_⟩, fun ⟨h5, h8, h9⟩ => ?_⟩ <;> omega

theorem lookupRow_level4_eq_none_iff (w : Word) :
    lookupRow (w &&& levelMask4) level4 = none ↔
      w.toNat / 4096 = 5 ∨ w.toNat / 4096 = 8 ∨ w.toNat / 4096 = 9 ∨ w.toNat / 4096 = 14 ∨ w.toNat / 4096 = 15 := by
  have := w.isLt
  simp only [lookupRow_eq_none_iff, level4, List.forall_mem_cons, ← BitVec.toNat_inj, and_levelMask4_toNat,
    BitVec.reduceToNat, ne_eq, List.not_mem_nil, false_implies, implies_true, and_true]
  omega

/-- Level 1's words have the high nibble of SYS. -/
theorem lookupRow_level1_of_level4 (w : Word) (h : lookupRow (w &&& levelMask4) level4 = none) :
    lookupRow (w &&& levelMask1) level1 = none := by
  rw [lookupRow_eq_none_iff] at h ⊢
  intro row hrow hkey
  obtain rfl : w = row.1 := BitVec.and_allOnes.symm.trans hkey
  exact h _ List.mem_cons_self (level1_as_sys row hrow).1

/-- Settles O3: only the five high nibbles without a row in level 4 leave words over, and levels 2 and 3 take theirs by low byte
and low nibble. -/
theorem wordsWithoutInstruction : Obligations.WordsWithoutInstruction := by
  intro w
  rw [decodeWord_eq_none_iff, and_iff_right_of_imp fun ⟨_, _, h4⟩ => lookupRow_level1_of_level4 w h4,
    lookupRow_level2_eq_none_iff, lookupRow_level3_eq_none_iff, lookupRow_level4_eq_none_iff]
  constructor
  · rintro ⟨⟨hE, hF⟩, ⟨h5, h8, h9⟩, h | h | h | h | h⟩
    · exact .inl ⟨h, h5 h⟩
    · exact .inr (.inl ⟨h, h8 h⟩)
    · exact .inr (.inr (.inl ⟨h, h9 h⟩))
    · exact .inr (.inr (.inr (.inl ⟨h, hE h⟩)))
    · exact .inr (.inr (.inr (.inr ⟨h, hF h⟩)))
  · rintro (⟨h, hl⟩ | ⟨h, hl⟩ | ⟨h, hl⟩ | ⟨h, hkk⟩ | ⟨h, hkk⟩) <;> simp [*]

/-- Settles O4, by running the decoder on the twelve words. -/
theorem writtenOutWordsDecode : Obligations.WrittenOutWordsDecode := by
  unfold Obligations.WrittenOutWordsDecode
  decide

end Sys2Proof.Laws

/-! # The machine cycle: fetch, decode, the routine's end, and the return value (40_cycle.md R90 to R97) -/

namespace Sys2Proof.Machine

/-! ## Fetch and decode (R92, R93) -/

theorem Memory.lt_of_read {m : Memory} {a : Nat} {b : Byte} (h : m.read a = some b) : a < 4096 := by
  by_contra hge
  rw [Memory.read_of_ge m a (Nat.not_lt.mp hge)] at h
  cases h

/-- Two bytes that read at `pc` are the halves of the fetched word. -/
theorem State.fetch_of_read {s : State} {hi lo : Byte} (hhi : s.mem.read s.pc.toNat = some hi)
    (hlo : s.mem.read (s.pc.toNat + 1) = some lo) : s.fetch = some (hi ++ lo) := by
  have hin : InBounds s.pc.toNat 2 := Memory.lt_of_read hlo
  rw [State.fetch, if_pos hin, Memory.readWord, hhi, hlo]
  rfl

theorem joinBytes_toNat (hi lo : Byte) : (joinBytes hi lo).toNat = hi.toNat * 256 + lo.toNat := by
  rw [joinBytes, BitVec.toNat_append, ← Nat.shiftLeft_add_eq_or_of_lt lo.isLt, Nat.shiftLeft_eq]

theorem step_of_fetch_none {s : State} (hs : s.Running) (hf : s.fetch = none) :
    step s = .next (s.latchFault .invalidAddress) := by
  rw [step, if_neg (by simp [hs]), hf]
  rfl

theorem step_of_decode_none {s : State} {w : Word} (hs : s.Running) (hf : s.fetch = some w) (hd : decodeWord w = none) :
    step s = .next (s.latchFault .invalidInstruction) := by
  rw [step, if_neg (by simp [hs]), hf]
  simp only [hd]
  rfl

/-! ## The return value (R97) -/

theorem cycleOk_iff (s t : State) : cycleOk s t = true ↔ s.Running ∧ t.Running := by
  simp [cycleOk]

theorem cycleOk_of_stopped_before {s : State} (t : State) (hs : s.Stopped) : cycleOk s t = false := by
  simp [cycleOk, hs]

theorem cycleOk_of_stopped_after (s : State) {t : State} (ht : t.Stopped) : cycleOk s t = false := by
  simp [cycleOk, ht]

/-- Settles O6: the bytes at `pc` are the fetched word, and the end of a cycle is `finishCycle`'s. -/
theorem stepRunsDecodedInstruction : Obligations.StepRunsDecodedInstruction := by
  intro s hi lo i hs hhi hlo hd
  have hstep : step s = finishCycle (exec i s) := step_of_fetch s _ i hs (State.fetch_of_read hhi hlo) hd
  refine ⟨hstep, fun t ht => ?_⟩
  rw [hstep, ht, finishCycle_next]

/-- Settles O8: a faulted machine's step is the identity, and `cycleOk` asks for a running state before it. -/
theorem faultedMachineIsFrozen : Obligations.FaultedMachineIsFrozen :=
  fun s hs => ⟨step_of_stopped s hs, cycleOk_of_stopped_before s hs⟩

/-- Settles O9: the bounds test of fetch is `pc < 4095`, and inside it both bytes read. -/
theorem fetchBigEndianOrFault : Obligations.FetchBigEndianOrFault := by
  intro s hs
  constructor
  · intro hpc
    exact ⟨_, step_of_fetch_none hs (s.fetch_of_out (by omega)), rfl, cycleOk_of_stopped_after s rfl⟩
  · intro hpc
    exact ⟨_, _, Memory.read_of_lt _ _ (by omega), Memory.read_of_lt _ _ (by omega), _, s.fetch_of_in (by omega),
      joinBytes_toNat _ _⟩

/-- Settles O10: the bytes at `pc` are the fetched word, and the decode fault is a latch and nothing more. -/
theorem undecodableWordFaults : Obligations.UndecodableWordFaults := by
  intro s hi lo hs hhi hlo hd
  exact ⟨_, step_of_decode_none hs (State.fetch_of_read hhi hlo) hd, rfl, cycleOk_of_stopped_after s rfl⟩

/-! ## A routine that raises has done nothing else (R95) -/

/-- A routine keeps the latch, or it raised: then it did nothing but latch one of R171's types, never `InvalidPixel`. -/
theorem exec_keeps_fault_or_latches (i : Instr) (s t : State) (h : exec i s = .next t) :
    t.fault = s.fault ∨ ∃ f : FaultType, f ≠ .invalidPixel ∧ t = s.latchFault f := by
  cases i with
  | ret =>
    obtain rfl | ⟨w, n, rfl⟩ := execRet_next_cases s t h
    · exact .inr ⟨_, by decide, rfl⟩
    · exact .inl rfl
  | callA o =>
    obtain rfl | ⟨st, n, w, rfl⟩ := execCallA_next_cases o s t h
    · exact .inr ⟨_, by decide, rfl⟩
    · exact .inl rfl
  | sysA o =>
    obtain rfl := Host.Outcome.next.inj h
    exact .inr ⟨_, by decide, rfl⟩
  | fontV o =>
    obtain rfl | rfl := execFontV_next_cases o s t h
    · exact .inr ⟨_, by decide, rfl⟩
    · exact .inl rfl
  | bcdV o | movMV o =>
    obtain rfl | ⟨m, rfl⟩ := storeBytesAtI_next_cases _ s t h
    · exact .inr ⟨_, by decide, rfl⟩
    · exact .inl rfl
  | movVM o =>
    obtain rfl | ⟨bs, -, rfl⟩ := execMovVM_next_cases o s t h
    · exact .inr ⟨_, by decide, rfl⟩
    · exact .inl (by simp)
  | drwVVN o =>
    obtain rfl | ⟨x0, y0, rows, rfl⟩ := execDrwVVN_next_cases o s t h
    · exact .inr ⟨_, by decide, rfl⟩
    · exact .inl (by simp)
  | _ => exact .inl (execChangesOnlyListedElements _ s t h .fault (by simp [instrWrites]))

/-- The end of a cycle leaves the latch as the routine did: the tick does not touch it. -/
theorem cycleEnd_fault (u : State) : (if u.fault.valid then u else u.timerTick).fault = u.fault := by
  split
  · rfl
  · exact u.timerTick_fault

/-- A running machine's routine that ends stopped raised. -/
theorem exec_latches_of_stopped {i : Instr} {s u : State} (hs : s.Running) (h : exec i s = .next u) (hu : u.Stopped) :
    ∃ f : FaultType, f ≠ .invalidPixel ∧ u = s.latchFault f := by
  obtain hkeep | hraise := exec_keeps_fault_or_latches i s u h
  · rw [State.Stopped, hkeep, hs] at hu
    cases hu
  · exact hraise

/-- Settles O11, by where the cycle failed: in fetch, in decode, or in the routine. -/
theorem failingCycleLeavesNoTrace : Obligations.FailingCycleLeavesNoTrace := by
  intro s t hs hstep ht
  refine ⟨?_, cycleOk_of_stopped_after s ht⟩
  obtain ⟨hstop, -⟩ | ⟨-, -, rfl⟩ | ⟨-, -, -, rfl⟩ | ⟨-, i, u, -, hu, rfl⟩ := step_next_cases s t hstep
  · exact absurd (hs.symm.trans hstop) (by decide)
  · exact ⟨.invalidAddress, by decide, rfl⟩
  · exact ⟨.invalidInstruction, by decide, rfl⟩
  · have hstop : u.Stopped := by rwa [State.Stopped, cycleEnd_fault] at ht
    rw [if_pos hstop]
    exact exec_latches_of_stopped hs hu hstop

/-- A cycle from a running state to a running state is a decoded instruction's routine that did not raise, and the tick. -/
theorem step_running_iff {s t : State} (h : step s = .next t) :
    s.Running ∧ t.Running ↔
      s.Running ∧ ∃ i u, s.fetch.bind decodeWord = some i ∧ exec i s = .next u ∧ u.Running ∧ t = u.timerTick := by
  constructor
  · rintro ⟨hs, ht⟩
    obtain ⟨hstop, -⟩ | ⟨-, -, rfl⟩ | ⟨-, -, -, rfl⟩ | ⟨-, i, u, hi, hu, rfl⟩ := step_next_cases s t h
    · exact absurd (hs.symm.trans hstop) (by decide)
    · cases ht
    · cases ht
    · have hrun : u.Running := by rwa [State.Running, cycleEnd_fault] at ht
      exact ⟨hs, i, u, hi, hu, hrun, if_neg (by simp [hrun])⟩
  · rintro ⟨hs, -, u, -, -, hu, rfl⟩
    exact ⟨hs, hu⟩

/-- Settles O14: neither state is faulted exactly when the cycle ran one routine to its end without a fault. -/
theorem okMeansOneInstructionCompleted : Obligations.OkMeansOneInstructionCompleted :=
  fun s t h => ⟨cycleOk_iff s t, (cycleOk_iff s t).trans (step_running_iff h)⟩

end Sys2Proof.Machine

/-! # Control transfer: SYS, RET, JMP, CALL, the skips, JMP V0 (41_control.md) -/

namespace Sys2Proof.Machine

/-! ## RET and CALL, by the stack they meet (R101, R103) -/

theorem exec_ret_of_pos (s : State) (h : 0 < s.sp.val) :
    exec .ret s = .next { s with pc := s.stack[s.sp.val - 1], sp := ⟨s.sp.val - 1, by omega⟩ } :=
  (execRet_eq s).trans (dif_pos h)

theorem exec_ret_of_empty (s : State) (h : s.sp.val = 0) : exec .ret s = raise .emptyStack s :=
  (execRet_eq s).trans (dif_neg (by omega))

theorem exec_callA_of_lt (o : GroupA) (s : State) (h : s.sp.val < 16) :
    exec (.callA o) s = .next { s with
      stack := s.stack.set s.sp.val (s.pc + 2) h, sp := ⟨s.sp.val + 1, by omega⟩, pc := o.nnn.setWidth 16 } :=
  (execCallA_eq o s).trans (dif_pos h)

theorem exec_callA_of_full (o : GroupA) (s : State) (h : s.sp.val = 16) : exec (.callA o) s = raise .fullStack s :=
  (execCallA_eq o s).trans (dif_neg (by omega))

/-! ## The frames of a return, of a call, and of the two together -/

theorem onlyChanges_pc_sp (s : State) (w : Word) (n : Fin 17) : OnlyChanges [.pc, .sp] s { s with pc := w, sp := n } :=
  ((OnlyChanges.refl _ s).set_pc w).set_sp n

theorem onlyChanges_pc_stack (s : State) (w : Word) (st : Vector Word 16) :
    OnlyChanges [.pc, .stack] s { s with stack := st, pc := w } :=
  ((OnlyChanges.refl _ s).set_stack st).set_pc w

theorem onlyChanges_pc_sp_stack (s : State) (w : Word) (n : Fin 17) (st : Vector Word 16) :
    OnlyChanges [.pc, .sp, .stack] s { s with stack := st, sp := n, pc := w } :=
  (((OnlyChanges.refl _ s).set_stack st).set_sp n).set_pc w

/-! ## Addresses as words -/

theorem addr_setWidth_toNat (a : Addr) : (a.setWidth 16).toNat = a.toNat := BitVec.toNat_setWidth_of_le (by decide)

/-- The sum of an address and a byte is below 65536, so it does not wrap. -/
theorem addr_add_byte_toNat (a : Addr) (b : Byte) : (a.setWidth 16 + b.setWidth 16).toNat = a.toNat + b.toNat := by
  have := a.isLt
  have := b.isLt
  simp only [BitVec.toNat_add, BitVec.toNat_setWidth]
  omega

/-! ## Jumps, calls and returns -/

/-- Settles O27: the routine is the raise. -/
theorem sysAlwaysFaults : Obligations.SysAlwaysFaults := fun _ _ => rfl

/-- Settles O28, by whether the stack is empty. -/
theorem retPopsOrFaults : Obligations.RetPopsOrFaults := by
  refine ⟨by decide, fun s => ⟨fun h => ?pops, exec_ret_of_empty s⟩⟩
  case pops =>
    exact ⟨_, exec_ret_of_pos s h, Vector.getElem?_eq_getElem _, rfl, onlyChanges_pc_sp s _ _⟩

/-- Settles O29: a jump to the address as a 16-bit word. -/
theorem jmpSetsPc : Obligations.JmpSetsPc := fun o s =>
  ⟨Laws.encode_toNat_A 0x1000 _ o rfl rfl (by decide), _, rfl, addr_setWidth_toNat o.nnn, (OnlyChanges.refl _ s).jump _⟩

/-- Settles O30, by whether the stack is full. -/
theorem callPushesOrFaults : Obligations.CallPushesOrFaults := by
  intro o s
  refine ⟨Laws.encode_toNat_A 0x2000 _ o rfl rfl (by decide), fun h => ?pushes, exec_callA_of_full o s⟩
  case pushes =>
    refine ⟨_, exec_callA_of_lt o s h, addr_setWidth_toNat o.nnn, rfl, ?pushed, ?others, ?frame⟩
    case pushed =>
      rw [Vector.getElem?_set_self h, Option.map_some, BitVec.toNat_add]
      rfl
    case others => exact fun k hk => Vector.getElem?_set_ne h hk.symm
    case frame => exact onlyChanges_pc_sp_stack s _ _ _

/-- Settles O31: RET reads the entry that CALL wrote, and leaves `sp` where CALL found it. -/
theorem retUndoesCall : Obligations.RetUndoesCall := by
  intro o s h
  refine ⟨_, _, exec_callA_of_lt o s h, exec_ret_of_pos _ (Nat.succ_pos _), ?pc, rfl, ?below, ?frame⟩
  case pc => exact Vector.getElem_set_self h
  case below => exact fun k hk => Vector.getElem?_set_ne h (by omega)
  case frame => exact onlyChanges_pc_stack s _ _

/-- Settles O34: a jump to the address plus V0, which does not wrap. -/
theorem jmpV0AddsV0 : Obligations.JmpV0AddsV0 := fun o s =>
  ⟨_, rfl, addr_add_byte_toNat o.nnn (s.readV 0), (OnlyChanges.refl _ s).jump _⟩

/-! ## The skips (R109) -/

/-- A conditional skip whose Boolean test stands for the condition `p`. -/
theorem State.skipIf_setsPc (s : State) {c : Bool} {p : Prop} [Decidable p] (h : c = true ↔ p) :
    SetsPc s (s.skipIf c) (if p then s.pc + 4 else s.pc + 2) :=
  ⟨(s.skipIf_pc c).trans (if_congr h rfl rfl), (OnlyChanges.refl _ s).skipIf c⟩

theorem byte_beq_iff (a b : Byte) : (a == b) = true ↔ a.toNat = b.toNat := beq_iff_eq.trans BitVec.toNat_inj.symm

theorem byte_bne_iff (a b : Byte) : (a != b) = true ↔ a.toNat ≠ b.toNat := bne_iff_ne.trans BitVec.toNat_ne

/-- Settles O32: the two words, and the routines' tests as conditions on the numbers. -/
theorem skipsOnByte : Obligations.SkipsOnByte := fun o s =>
  ⟨Laws.encode_toNat_VB 0x3000 _ o rfl rfl (by decide) (by decide),
    Laws.encode_toNat_VB 0x4000 _ o rfl rfl (by decide) (by decide),
    ⟨_, rfl, s.skipIf_setsPc (byte_beq_iff _ _)⟩, ⟨_, rfl, s.skipIf_setsPc (byte_bne_iff _ _)⟩⟩

/-- Settles O33: the same two tests, between registers. -/
theorem skipsOnRegister : Obligations.SkipsOnRegister := fun _ s =>
  ⟨⟨_, rfl, s.skipIf_setsPc (byte_beq_iff _ _)⟩, ⟨_, rfl, s.skipIf_setsPc (byte_bne_iff _ _)⟩⟩

end Sys2Proof.Machine

/-! # Moves, the ALU and RND (42_alu.md) -/

namespace Sys2Proof.Machine

/-! ## The two ends of an ALU routine (R120) -/

theorem State.writeV_advance_writesReg (s : State) (x : Nibble) (b : Byte) : WritesReg s (s.writeV x b).advance x b where
  result := State.readV_writeV_self s x b
  others k hk := State.readV_writeV_of_ne s x k b hk
  pc := rfl
  frame := ((OnlyChanges.refl _ s).writeV x b).advance

/-- The flag and the result may be given in another form than the routine's. -/
theorem State.writeFlagThenResult_advance_writes (s : State) (x : Nibble) {c f : Bool} {b r : Byte} (hf : c = f) (hr : b = r) :
    WritesFlagAndReg s (s.writeFlagThenResult x c b).advance x f r where
  result := (State.readV_writeFlagThenResult_self s x c b).trans hr
  flag hx := (State.readV_writeFlagThenResult_vf s x c b hx).trans (congrArg flagByte hf)
  others k hk hkf := State.readV_writeFlagThenResult_of_ne s x k c b hk hkf
  pc := rfl
  frame := ((OnlyChanges.refl _ s).writeFlagThenResult x c b).advance

/-! ## Byte operations as arithmetic modulo 256 -/

theorem byte_add_eq_ofNat (a b : Byte) : a + b = BitVec.ofNat 8 ((a.toNat + b.toNat) % 256) := by
  apply BitVec.eq_of_toNat_eq
  rw [BitVec.toNat_add, BitVec.toNat_ofNat, Nat.mod_mod]

theorem byte_sub_eq_ofNat (a b : Byte) : a - b = BitVec.ofNat 8 ((a.toNat + 256 - b.toNat) % 256) := by
  have := a.isLt
  have := b.isLt
  apply BitVec.eq_of_toNat_eq
  rw [BitVec.toNat_sub, BitVec.toNat_ofNat]
  omega

theorem byte_shr_one_eq_ofNat (a : Byte) : a >>> 1 = BitVec.ofNat 8 (a.toNat / 2) := by
  have := a.isLt
  apply BitVec.eq_of_toNat_eq
  rw [BitVec.toNat_ushiftRight, Nat.shiftRight_one, BitVec.toNat_ofNat]
  omega

theorem byte_shl_one_eq_ofNat (a : Byte) : a <<< 1 = BitVec.ofNat 8 (a.toNat * 2 % 256) := by
  apply BitVec.eq_of_toNat_eq
  rw [BitVec.toNat_shiftLeft, Nat.shiftLeft_eq, BitVec.toNat_ofNat, Nat.mod_mod]

theorem shiftedOutLow_eq (a : Byte) : shiftedOutLow a = decide (a.toNat % 2 = 1) :=
  Nat.testBit_zero a.toNat

theorem shiftedOutHigh_eq (a : Byte) : shiftedOutHigh a = decide (a.toNat ≥ 128) :=
  BitVec.msb_eq_decide a

/-! ## Sum and differences -/

/-- Settles O37: the carry is the routine's own test, and the byte sum is the sum modulo 256. -/
theorem addSetsCarry : Obligations.AddSetsCarry := fun o s =>
  ⟨Laws.encode_toNat_VV 0x8004 _ o rfl rfl (by decide) (by decide),
    _, rfl, s.writeFlagThenResult_advance_writes o.x rfl (byte_add_eq_ofNat _ _)⟩

/-- Settles O38: as the sum, with the difference. -/
theorem subSetsBorrowComplement : Obligations.SubSetsBorrowComplement := fun o s =>
  ⟨Laws.encode_toNat_VV 0x8005 _ o rfl rfl (by decide) (by decide),
    _, rfl, s.writeFlagThenResult_advance_writes o.x rfl (byte_sub_eq_ofNat _ _)⟩

/-- Settles O39: the same difference with the registers exchanged. -/
theorem subnIsReversedSub : Obligations.SubnIsReversedSub := fun o s =>
  ⟨_, rfl, s.writeFlagThenResult_advance_writes o.x rfl (byte_sub_eq_ofNat _ _)⟩

/-! ## Shifts (R129, R131) -/

theorem exec_shrVV_writes (o : GroupVV) (s : State) (a : Byte) (h : shiftOperand (s.readV o.x) (s.readV o.y) = a) :
    ∃ t, exec (.shrVV o) s = .next t ∧
      WritesFlagAndReg s t o.x (decide (a.toNat % 2 = 1)) (BitVec.ofNat 8 (a.toNat / 2)) := by
  subst h
  exact ⟨_, rfl, s.writeFlagThenResult_advance_writes o.x (shiftedOutLow_eq _) (byte_shr_one_eq_ofNat _)⟩

theorem exec_shlVV_writes (o : GroupVV) (s : State) (a : Byte) (h : shiftOperand (s.readV o.x) (s.readV o.y) = a) :
    ∃ t, exec (.shlVV o) s = .next t ∧
      WritesFlagAndReg s t o.x (decide (a.toNat ≥ 128)) (BitVec.ofNat 8 (a.toNat * 2 % 256)) := by
  subst h
  exact ⟨_, rfl, s.writeFlagThenResult_advance_writes o.x (shiftedOutHigh_eq _) (byte_shl_one_eq_ofNat _)⟩

/-- Settles O40, by the value of `SHIFT_SRC`. -/
theorem shiftsByOne : Obligations.ShiftsByOne := by
  intro o s
  cases hsrc : Config.shiftSrc with
  | vx =>
    have ha : shiftOperand (s.readV o.x) (s.readV o.y) = s.readV o.x := if_neg (by rw [hsrc]; decide)
    exact ⟨exec_shrVV_writes o s _ ha, exec_shlVV_writes o s _ ha⟩
  | vy =>
    have ha : shiftOperand (s.readV o.x) (s.readV o.y) = s.readV o.y := if_pos hsrc
    exact ⟨exec_shrVV_writes o s _ ha, exec_shlVV_writes o s _ ha⟩

/-! ## The routines that set no flag (R121 to R126, R132) -/

/-- Settles O35: each routine is one register write. -/
theorem movesAndAddImmediate : Obligations.MovesAndAddImmediate := by
  intro o p s
  refine ⟨⟨_, rfl, s.writeV_advance_writesReg o.x o.kk⟩, ⟨_, rfl, ?add⟩, _, rfl, s.writeV_advance_writesReg p.x (s.readV p.y)⟩
  case add =>
    rw [← byte_add_eq_ofNat]
    exact s.writeV_advance_writesReg o.x _

/-- Settles O36: each routine is one register write, of a byte whose bits the library's lemma gives. -/
theorem logicIsBitwise : Obligations.LogicIsBitwise := fun o s =>
  ⟨⟨_, _, rfl, s.writeV_advance_writesReg o.x _, fun _ _ => BitVec.getLsbD_or⟩,
    ⟨_, _, rfl, s.writeV_advance_writesReg o.x _, fun _ _ => BitVec.getLsbD_and⟩,
    _, _, rfl, s.writeV_advance_writesReg o.x _, fun _ _ => BitVec.getLsbD_xor⟩

/-- Settles O41: the register write of the masked draw, from the state in which the draw is counted. -/
theorem rndMasksTheDraw : Obligations.RndMasksTheDraw := by
  intro o s
  have hx : (s.drawn.writeV o.x (s.draw &&& o.kk)).advance.readV o.x = s.draw &&& o.kk := State.readV_writeV_self _ _ _
  refine ⟨_, rfl, hx, fun k _ hkk => ?masked, fun k hk => State.readV_writeV_of_ne _ _ k _ hk, rfl, rfl, ?frame⟩
  case masked => rw [hx, BitVec.getLsbD_and, hkk, Bool.and_false]
  case frame => exact ((OnlyChanges.refl _ s).drawn.writeV _ _).advance

end Sys2Proof.Machine

/-! # The index register, FONT, BCD and the bulk transfers (43_index_memory.md) -/

namespace Sys2Proof.Machine

/-! ## Writes of `I` (R140 to R142) -/

theorem word_add_byte_toNat (w : Word) (b : Byte) : (w + b.setWidth 16).toNat = (w.toNat + b.toNat) % 65536 := by
  rw [BitVec.toNat_add, BitVec.toNat_setWidth_of_le (by decide)]

theorem glyphAddr_toNat (d : Byte) : (glyphAddr d).toNat = 0x100 + 5 * d.toNat := by
  have := d.isLt
  rw [glyphAddr, BitVec.toNat_ofNat]
  omega

theorem State.writeI_advance_onlyChanges (s : State) (w : Word) : OnlyChanges [.i, .pc] s (s.writeI w).advance :=
  ((OnlyChanges.refl _ s).writeI w).advance

/-- Settles O42: each routine is one write of `I`; an address as a word keeps its number, and the sum is one of 16-bit words. -/
theorem indexLoadAndAdd : Obligations.IndexLoadAndAdd := fun o _ s =>
  ⟨⟨_, rfl, addr_setWidth_toNat o.nnn, rfl, s.writeI_advance_onlyChanges _⟩,
    _, rfl, word_add_byte_toNat s.i _, rfl, s.writeI_advance_onlyChanges _⟩

/-- Settles O43, by whether the register holds a digit. -/
theorem fontGivesGlyphAddress : Obligations.FontGivesGlyphAddress := by
  intro o s
  refine ⟨fun h => ?digit, fun h => ?noDigit⟩
  case digit =>
    exact ⟨_, (execFontV_eq o s).trans (if_neg (Nat.not_le.mpr h)), glyphAddr_toNat _, rfl, s.writeI_advance_onlyChanges _⟩
  case noDigit => exact (execFontV_eq o s).trans (if_pos h)

/-! ## Stores at `I` (R143, R144, R146) -/

/-- The bytes `bs` go to memory from `I` on and the machine goes on to the next instruction; nothing else changes. -/
structure StoresAtI (bs : List Byte) (s t : State) : Prop where
  stored : ∀ k (hk : k < bs.length), t.mem.read (s.i.toNat + k) = some bs[k]
  outside : SameMemOutside s.i.toNat bs.length s t
  pc : t.pc = s.pc + 2
  frame : OnlyChanges [.mem, .pc] s t

theorem storeBytesAtI_storesAtI (bs : List Byte) (s : State) (h : InBounds s.i.toNat bs.length) :
    ∃ t, storeBytesAtI bs s = .next t ∧ StoresAtI bs s t := by
  obtain ⟨m, hm, hin, hout, -⟩ := storeBytesAtI_of_in bs s h
  refine ⟨_, hm, ?stored, ?outside, rfl, ((OnlyChanges.refl _ s).set_mem m).advance⟩
  case stored =>
    intro k hk
    rw [Memory.read_of_lt _ _ (by omega)]
    exact congrArg some (hin k hk)
  case outside => exact fun b hb => Memory.read_congr _ _ b (hout b hb)

/-- BCD's three bytes are the decimal digits of the number they are made from; each fits a byte, so none is cut. -/
theorem bcdDigits_spec (b : Byte) : ∃ h d u, bcdDigits b = [h, d, u] ∧
    h.toNat * 100 + d.toNat * 10 + u.toNat = b.toNat ∧ d.toNat < 10 ∧ u.toNat < 10 := by
  have := b.isLt
  refine ⟨_, _, _, rfl, ?_⟩
  simp only [BitVec.toNat_ofNat]
  omega

/-- Settles O44: a store of the three digits. -/
theorem bcdStoresDigits : Obligations.BcdStoresDigits := by
  intro o s hin
  obtain ⟨h, d, u, hdigits, hsum, hd, hu⟩ := bcdDigits_spec (s.readV o.x)
  obtain ⟨t, ht, hs⟩ := storeBytesAtI_storesAtI [h, d, u] s hin
  rw [← hdigits] at ht
  exact ⟨t, h, d, u, ht, hs.stored 0 (by simp), hs.stored 1 (by simp), hs.stored 2 (by simp), hsum, hd, hu, hs.outside, hs.pc,
    hs.frame⟩

/-- Settles O45: a store of the list of the first registers. -/
theorem bulkStoreWritesRegisters : Obligations.BulkStoreWritesRegisters := by
  intro o s h
  have hlen := s.firstRegs_length o.x
  obtain ⟨t, ht, hs⟩ := storeBytesAtI_storesAtI (s.firstRegs o.x) s (by rw [hlen]; exact h)
  refine ⟨t, ht, fun k hk => ?stored, hlen ▸ hs.outside, hs.pc, hs.frame⟩
  case stored => rw [hs.stored k.toNat (by omega), s.firstRegs_getElem]

/-! ## The bulk load (R145), and a store loaded back -/

theorem State.readV_loadRegs_range (s : State) (f : Nat → Byte) (n : Nat) (k : Nibble) (h : k.toNat < n) :
    (s.loadRegs ((List.range n).map f)).readV k = f k.toNat := by
  rw [State.readV_loadRegs, List.getElem?_map, List.getElem?_range h, Option.map_some, Option.getD_some]

/-- Settles O46: the loaded list has a byte for each register up to Vx and none above. -/
theorem bulkLoadReadsRegisters : Obligations.BulkLoadReadsRegisters := by
  intro o s h
  refine ⟨_, (execMovVM_eq o s).trans (if_pos h), fun k hk => ?loaded, fun k hk => ?others, ?pc, ?frame⟩
  case loaded =>
    rw [Memory.read_of_lt _ _ (by omega), State.advance_readV, State.readV_loadRegs_range _ _ _ _ (by omega)]
  case others => exact State.readV_loadRegs_of_length_le s _ k (by rw [List.length_map, List.length_range]; exact hk)
  case pc => exact congrArg (· + 2) (State.loadRegs_pc s _)
  case frame => exact ((OnlyChanges.refl _ s).loadRegs _).advance

/-- Settles O47: the load (O46) reads the bytes the store (O45) wrote, since neither the store nor what comes between moves `I`. -/
theorem bulkLoadRestoresBulkStore : Obligations.BulkLoadRestoresBulkStore := by
  intro o s t u h ht hu
  obtain ⟨t', ht', stored, -, -, frame⟩ := bulkStoreWritesRegisters o s h
  obtain rfl := Host.Outcome.next.inj (ht.symm.trans ht')
  have hi : u.i = s.i := (hu .i (by decide)).trans (frame .i (by decide))
  obtain ⟨r, hr, loaded, -⟩ := bulkLoadReadsRegisters o u (by rw [hi]; exact h)
  refine ⟨r, hr, fun k hk => Option.some.inj ?_⟩
  calc some (r.readV k) = u.mem.read (u.i.toNat + k.toNat) := (loaded k hk).symm
    _ = t.mem.read (s.i.toNat + k.toNat) := by rw [hi]; exact hu .mem (by decide) _
    _ = some (s.readV k) := stored k hk

end Sys2Proof.Machine

/-! # The display: CLS and DRW (44_display.md) -/

namespace Sys2Proof.Machine

/-! ## CLS (R150) -/

/-- Settles O49: the routine is one write of the dark display. -/
theorem clsDarkensDisplay : Obligations.ClsDarkensDisplay :=
  ⟨by decide, fun s => ⟨_, rfl, Display.pixel_dark, rfl, ((OnlyChanges.refl _ s).set_disp _).advance⟩⟩

/-! ## DRW as one drawing of the sprite's picture (R151) -/

/-- Settles O26: the height is tested first. -/
theorem wideSpriteHeightFaults : Obligations.WideSpriteHeightFaults := fun _ _ _ _ h => if_pos h

/-- The pixels under the 1 bits of the sprite that DRW with operands `o` draws from `s`. -/
abbrev State.picture (s : State) (o : GroupVVN) : Nat → Nat → Bool :=
  spriteBit s (s.readV o.x).toNat (s.readV o.y).toNat o.n.toNat

/-- The state DRW with operands `o` answers from `s` when the sprite lies in memory. -/
def State.afterDrw (s : State) (o : GroupVVN) : State :=
  s.drawSprite (s.readV o.x).toNat (s.readV o.y).toNat ((List.range o.n.toNat).map fun k => s.mem.lookup (s.i.toNat + k))

@[simp] theorem State.afterDrw_i (s : State) (o : GroupVVN) : (s.afterDrw o).i = s.i := s.drawSprite_i _ _ _

@[simp] theorem State.afterDrw_mem (s : State) (o : GroupVVN) : (s.afterDrw o).mem = s.mem := s.drawSprite_mem _ _ _

theorem exec_drwVVN_of_in (o : GroupVVN) (s : State) (h : InBounds s.i.toNat o.n.toNat) :
    exec (.drwVVN o) s = .next (s.afterDrw o) :=
  (execDrwVVN_eq o s).trans (if_pos h)

theorem flagByte_eq_zero_or_one (c : Bool) : flagByte c = 0 ∨ flagByte c = 1 := by cases c <;> decide

theorem flagByte_eq_one_iff (c : Bool) : flagByte c = 1 ↔ c = true := by cases c <;> decide

theorem State.readV_vf_drawSprite (s : State) (x0 y0 : Nat) (rows : List Byte) :
    (s.drawSprite x0 y0 rows).readV vf = flagByte (plotRows x0 y0 rows (s.disp, false)).2 :=
  State.readV_writeV_self _ _ _

theorem State.readV_vf_drawSprite_eq_zero_or_one (s : State) (x0 y0 : Nat) (rows : List Byte) :
    (s.drawSprite x0 y0 rows).readV vf = 0 ∨ (s.drawSprite x0 y0 rows).readV vf = 1 := by
  rw [State.readV_vf_drawSprite]
  exact flagByte_eq_zero_or_one _

/-- The pixels under the picture are flipped and no other; a null pixel stays null, whatever the picture has there. -/
theorem State.pixel_afterDrw (s : State) (o : GroupVVN) (x y : Nat) :
    (s.afterDrw o).disp.pixel x y = (s.disp.pixel x y).map fun lit => lit != s.picture o x y := by
  by_cases hv : x < 64 ∧ y < 32
  · rw [State.afterDrw, State.drawSprite_disp]
    exact (Machine.drawSprite_draws s _ _ _).pixel x y hv.1 hv.2
  · rw [Display.pixel_of_invalid _ x y hv, Display.pixel_of_invalid _ x y hv, Option.map_none]

theorem State.readV_vf_afterDrw_eq_one_iff (s : State) (o : GroupVVN) :
    (s.afterDrw o).readV vf = 1 ↔ ∃ x y, x < 64 ∧ y < 32 ∧ s.picture o x y = true ∧ s.disp.pixel x y = some true := by
  rw [State.afterDrw, State.readV_vf_drawSprite, flagByte_eq_one_iff, (Machine.drawSprite_draws s _ _ _).hit]
  exact or_iff_right Bool.false_ne_true

/-- Settles O50, by what the one drawing does to the pixels and to VF. -/
theorem drwFlipsSpritePixels : Obligations.DrwFlipsSpritePixels := by
  intro o s h
  refine ⟨_, exec_drwVVN_of_in o s h, fun x y hx hy => ?pixels, s.readV_vf_drawSprite_eq_zero_or_one _ _ _,
    s.readV_vf_afterDrw_eq_one_iff o, s.readV_drawSprite_of_ne_vf _ _ _, s.drawSprite_pc _ _ _, (OnlyChanges.refl _ s).drawSprite _ _ _⟩
  case pixels =>
    have hlit := s.disp.pixel_of_valid x y hx hy
    exact ⟨_, hlit, by rw [s.pixel_afterDrw, hlit, Option.map_some]⟩

/-! ## The same sprite a second time -/

/-- DRW moves neither `I` nor the sprite's bytes, so the second picture is the first unless VF is a coordinate. -/
theorem State.picture_afterDrw (s : State) (o : GroupVVN) (hx : o.x ≠ vf) (hy : o.y ≠ vf) :
    (s.afterDrw o).picture o = s.picture o := by
  have hrx : (s.afterDrw o).readV o.x = s.readV o.x := s.readV_drawSprite_of_ne_vf _ _ _ _ hx
  have hry : (s.afterDrw o).readV o.y = s.readV o.y := s.readV_drawSprite_of_ne_vf _ _ _ _ hy
  funext px py
  simp only [State.picture, spriteBit, State.afterDrw_i, State.afterDrw_mem, hrx, hry]

/-- A pixel under the picture is lit after the drawing iff it was dark before. -/
theorem State.lit_afterDrw_iff {s : State} {o : GroupVVN} {x y : Nat} (h : s.picture o x y = true) :
    (s.afterDrw o).disp.pixel x y = some true ↔ s.disp.pixel x y = some false := by
  rw [s.pixel_afterDrw, h]
  cases s.disp.pixel x y <;> simp

/-- Settles O51: two flips of the one picture cancel, and the second drawing collides where the first one lit a pixel. -/
theorem drwTwiceRestoresDisplay : Obligations.DrwTwiceRestoresDisplay := by
  intro o s h hx hy
  have hpic := s.picture_afterDrw o hx hy
  refine ⟨_, _, exec_drwVVN_of_in o s h, exec_drwVVN_of_in o (s.afterDrw o) (by rwa [s.afterDrw_i]), fun x y => ?restored, ?flag⟩
  case restored =>
    rw [State.pixel_afterDrw, hpic, State.pixel_afterDrw, Option.map_map]
    cases s.disp.pixel x y <;> simp
  case flag =>
    refine ((s.afterDrw o).readV_vf_afterDrw_eq_one_iff o).trans ?_
    rw [hpic]
    exact exists₂_congr fun x y => and_congr_right fun _ => and_congr_right fun _ => and_congr_right State.lit_afterDrw_iff

end Sys2Proof.Machine

/-! # The keypad and the timers (45_keypad_timers.md) -/

namespace Sys2Proof.Machine

/-! ## WKP, by whether a key is pressed (R162) -/

theorem exec_wkpV_of_key (o : GroupV) {s : State} {k : Nat} (h : leastKey s.keys = some k) :
    exec (.wkpV o) s = .next (s.writeV o.x (BitVec.ofNat 8 k)).advance := by
  rw [exec, execWkpV_eq, h]

theorem exec_wkpV_of_no_key (o : GroupV) {s : State} (h : s.keys = 0) : exec (.wkpV o) s = .next s := by
  rw [exec, execWkpV_eq, (leastKey_eq_none_iff s.keys).mpr h]

/-- Settles O53: the routine is one register write, of the key that `leastKey` finds. -/
theorem wkpTakesLeastKey : Obligations.WkpTakesLeastKey := fun o s k hk hpressed hlower =>
  ⟨_, exec_wkpV_of_key o ((leastKey_eq_some_iff s.keys k).mpr ⟨hk, hpressed, hlower⟩), s.writeV_advance_writesReg o.x _⟩

/-! ## A cycle in which the routine changes nothing (R96) -/

theorem State.timerTick_onlyChanges (s : State) : OnlyChanges [.dt, .st, .dtAcc, .stAcc] s s.timerTick := by
  intro e he
  cases e with
  | dt | st | dtAcc | stAcc => exact absurd he (by decide)
  | _ => simp [SameElem]

/-- A running machine whose routine answers a running state ends its cycle with the tick. -/
theorem step_of_exec_running {s t : State} {i : Instr} (hs : s.Running) (hi : s.fetch.bind decodeWord = some i)
    (h : exec i s = .next t) (ht : t.Running) : step s = .next t.timerTick := by
  obtain ⟨w, hf, hd⟩ := Option.bind_eq_some_iff.mp hi
  rw [step_of_fetch s w i hs hf hd, h, finishCycle_next, if_neg (by simp [ht])]

/-- Settles O54: with no key the routine answers the state itself, so what the cycle does is the tick. -/
theorem wkpWaitsWithoutKey : Obligations.WkpWaitsWithoutKey := fun o s hs hkeys hi =>
  ⟨step_of_exec_running hs hi (exec_wkpV_of_no_key o hkeys) hs, (cycleOk_iff s s.timerTick).mpr ⟨hs, hs⟩, s.timerTick_onlyChanges⟩

/-! ## The skips on a key (R160, R161, R166) -/

theorem State.not_pressed_iff (s : State) (b : Byte) :
    (!s.pressed b) = true ↔ ¬(b.toNat < 16 ∧ s.keys.getLsbD b.toNat = true) := by
  rw [Bool.not_eq_true', ← Bool.not_eq_true, s.pressed_iff]

/-- Settles O52: the two words, and the routines' tests as `Pressed` and its negation. -/
theorem skipsOnKey : Obligations.SkipsOnKey := by
  intro o s
  refine ⟨Laws.encode_toNat_V 0xE09E _ o rfl rfl (by decide), Laws.encode_toNat_V 0xE0A1 _ o rfl rfl (by decide),
    ⟨_, rfl, s.skipIf_setsPc (s.pressed_iff _)⟩, _, rfl, ?notPressed⟩
  case notPressed =>
    rw [← ite_not]
    exact s.skipIf_setsPc (s.not_pressed_iff _)

/-! ## The timer moves (R163 to R165) -/

/-- Settles O55: one register write, and one write of each timer. -/
theorem timerMoves : Obligations.TimerMoves := fun o s =>
  ⟨⟨_, rfl, s.writeV_advance_writesReg o.x s.dt⟩,
    ⟨_, rfl, rfl, rfl, ((OnlyChanges.refl _ s).set_dt _).advance⟩,
    _, rfl, rfl, rfl, ((OnlyChanges.refl _ s).set_st _).advance⟩

end Sys2Proof.Machine

/-! # Faults and timers: the table of causes, the tick, and what every cycle keeps (60_exceptions.md) -/

namespace Sys2Proof.Machine

/-- Settles O20: the step lemma that the reachable states of O22 rest on. -/
theorem stepKeepsInvariants : Obligations.StepKeepsInvariants := step_keeps_inv

/-! ## The table of causes (R171, R178) -/

/-- A routine or a cycle of `s` ends as its cause says: with a cause it raises it, without one it ends in a next state whose latch
is as before. -/
structure FollowsCause (s : State) (cause : Option FaultType) (r : Result) : Prop where
  raises : ∀ f, cause = some f → r = raise f s
  completes : cause = none → ∃ t, r = .next t ∧ t.fault = s.fault

section Cause

variable {s : State} {r : Result}

theorem FollowsCause.of_raise {f : FaultType} (h : r = raise f s) : FollowsCause s (some f) r where
  raises := by
    rintro _ ⟨⟩
    exact h
  completes := nofun

theorem FollowsCause.of_next {t : State} (h : r = .next t) (hf : t.fault = s.fault) : FollowsCause s none r where
  raises := nofun
  completes := fun _ => ⟨t, h, hf⟩

/-- A row of the table with a condition. -/
theorem FollowsCause.of_guard {f : FaultType} {c : Prop} [Decidable c] (hraise : c → r = raise f s)
    (hnext : ¬c → ∃ t, r = .next t ∧ t.fault = s.fault) : FollowsCause s (if c then some f else none) r := by
  by_cases hc : c
  · rw [if_pos hc]
    exact .of_raise (hraise hc)
  · rw [if_neg hc]
    obtain ⟨t, ht, hf⟩ := hnext hc
    exact .of_next ht hf

/-- What a cycle does after the routine keeps the cause: it stops at a latched fault, and the tick does not touch the latch. -/
theorem FollowsCause.finishCycle {cause : Option FaultType} (h : FollowsCause s cause r) :
    FollowsCause s cause (finishCycle r) where
  raises := by
    intro f hf
    rw [h.raises f hf]
    rfl
  completes := by
    intro hc
    obtain ⟨t, rfl, hf⟩ := h.completes hc
    exact ⟨_, finishCycle_next t, (cycleEnd_fault t).trans hf⟩

end Cause

theorem storeBytesAtI_completes (bs : List Byte) (s : State) (h : InBounds s.i.toNat bs.length) :
    ∃ t, storeBytesAtI bs s = .next t ∧ t.fault = s.fault := by
  obtain ⟨m, hm, -⟩ := storeBytesAtI_of_in bs s h
  exact ⟨_, hm, rfl⟩

/-- The execute rows of the table, by the instruction; the transfers out of bounds are O25's. -/
theorem exec_followsCause (i : Instr) (s : State) : FollowsCause s (instrFaultCause s i) (exec i s) := by
  cases i with
  | sysA o => exact .of_raise rfl
  | ret =>
    exact .of_guard (exec_ret_of_empty s) fun h => ⟨_, exec_ret_of_pos s (Nat.pos_of_ne_zero h), rfl⟩
  | callA o =>
    exact .of_guard (exec_callA_of_full o s) fun h => ⟨_, exec_callA_of_lt o s (by omega), rfl⟩
  | fontV o =>
    exact .of_guard (fun h => if_pos h) fun h => ⟨_, if_neg h, rfl⟩
  | bcdV o =>
    obtain ⟨hout, -, -⟩ := outOfBoundsTransferFaults s o.x 0 0
    exact .of_guard hout fun h => storeBytesAtI_completes _ s (Nat.not_lt.mp h)
  | movMV o =>
    obtain ⟨-, hout, -⟩ := outOfBoundsTransferFaults s o.x 0 0
    refine .of_guard (fun h => (hout h).1) fun h => storeBytesAtI_completes _ s ?_
    rw [State.firstRegs_length]
    exact Nat.not_lt.mp h
  | movVM o =>
    obtain ⟨-, hout, -⟩ := outOfBoundsTransferFaults s o.x 0 0
    exact .of_guard (fun h => (hout h).2) fun h => ⟨_, (execMovVM_eq o s).trans (if_pos (Nat.not_lt.mp h)), by simp⟩
  | drwVVN o =>
    obtain ⟨-, -, hout⟩ := outOfBoundsTransferFaults s o.x o.y o.n
    exact .of_guard hout fun h => ⟨_, exec_drwVVN_of_in o s (Nat.not_lt.mp h), s.drawSprite_fault _ _ _⟩
  | wkpV o =>
    cases hk : leastKey s.keys with
    | none => exact .of_next (exec_wkpV_of_no_key o ((leastKey_eq_none_iff s.keys).mp hk)) rfl
    | some k => exact .of_next (exec_wkpV_of_key o hk) rfl
  | _ => exact .of_next rfl rfl

/-- The whole table, in the order of R178: fetch, decode, execute. -/
theorem step_followsCause {s : State} (hs : s.Running) : FollowsCause s s.faultCause (step s) := by
  by_cases hp : s.pc.toNat + 2 ≤ 4096
  · have hf := s.fetch_of_in hp
    rw [State.faultCause, if_neg (Nat.not_lt.mpr hp)]
    cases hd : decodeWord (joinBytes (s.mem.lookup s.pc.toNat) (s.mem.lookup (s.pc.toNat + 1))) with
    | none => exact .of_raise (step_of_decode_none hs hf hd)
    | some i =>
      rw [step_of_fetch s _ i hs hf hd]
      exact (exec_followsCause i s).finishCycle
  · rw [State.faultCause, if_pos (Nat.not_le.mp hp)]
    exact .of_raise (step_of_fetch_none hs (s.fetch_of_out hp))

/-- Settles O12: each half of `FollowsCause`, and the return value from the latch it leaves. -/
theorem faultsAreExactlyTheListedCauses : Obligations.FaultsAreExactlyTheListedCauses := by
  intro s hs
  have hstep := step_followsCause hs
  cases hc : s.faultCause with
  | some f =>
    have hfail : cycleOk s (s.latchFault f) = false := cycleOk_of_stopped_after s rfl
    refine ⟨s.latchFault f, hstep.raises f hc, ?_, nofun, by simp [hfail]⟩
    rintro _ ⟨⟩
    rfl
  | none =>
    obtain ⟨t, ht, hf⟩ := hstep.completes hc
    have hrun : t.Running := by rwa [State.Running, hf]
    exact ⟨t, ht, nofun, fun _ => hrun, fun _ => rfl, fun _ => (cycleOk_iff s t).mpr ⟨hs, hrun⟩⟩

/-! ## Clearing a fault (R176) -/

/-- The table does not read the latch. -/
theorem State.faultCause_clearFault (s : State) : s.clearFault.faultCause = s.faultCause := rfl

/-- Settles O56: the state the host leaves has the cause that the failed cycle had, and latches it again. -/
theorem clearedFaultComesBack : Obligations.ClearedFaultComesBack := by
  intro s t hs hstep ht
  refine ⟨t.clearFault, rfl, rfl, ?_⟩
  have hfollows := step_followsCause hs
  cases hc : s.faultCause with
  | none =>
    obtain ⟨u, hu, hf⟩ := hfollows.completes hc
    obtain rfl := Host.Outcome.next.inj (hstep.symm.trans hu)
    rw [State.Stopped, hf, hs] at ht
    cases ht
  | some f =>
    obtain rfl : t = s.latchFault f := Host.Outcome.next.inj (hstep.symm.trans (hfollows.raises f hc))
    have hc' : (s.latchFault f).clearFault.faultCause = some f := hc
    exact (step_followsCause rfl).raises f hc'

/-! ## The accumulators over a cycle (R181) -/

/-- No routine writes an accumulator or the clock rate (O23). -/
theorem exec_keeps_accumulators {i : Instr} {s t : State} (h : exec i s = .next t) :
    t.masterClockRate = s.masterClockRate ∧ t.dtAcc = s.dtAcc ∧ t.stAcc = s.stAcc := by
  have frame := execChangesOnlyListedElements i s t h
  exact ⟨frame .masterClockRate (by cases i <;> simp [instrWrites]), frame .dtAcc (by cases i <;> simp [instrWrites]),
    frame .stAcc (by cases i <;> simp [instrWrites])⟩

theorem exec_keeps_accBounded {i : Instr} {s t : State} (hs : s.AccBounded) (h : exec i s = .next t) : t.AccBounded := by
  obtain ⟨hrate, hdt, hst⟩ := exec_keeps_accumulators h
  exact ⟨by rw [hrate, hdt]; exact hs.dt, by rw [hrate, hst]; exact hs.st⟩

/-- The tick establishes the bound whatever the accumulators were before. -/
theorem timerTick_accBounded (s : State) : s.timerTick.AccBounded :=
  ⟨nextAcc_bounded s.masterClockRate s.dtAcc, nextAcc_bounded s.masterClockRate s.stAcc⟩

theorem step_keeps_accBounded {s t : State} (hs : s.AccBounded) (h : step s = .next t) : t.AccBounded := by
  obtain ⟨-, rfl⟩ | ⟨-, -, rfl⟩ | ⟨-, -, -, rfl⟩ | ⟨-, i, u, -, hu, rfl⟩ := step_next_cases s t h
  · exact hs
  · exact ⟨hs.dt, hs.st⟩
  · exact ⟨hs.dt, hs.st⟩
  · split
    · exact exec_keeps_accBounded hs hu
    · exact timerTick_accBounded u

/-- Settles O21: a cycle that fails leaves the accumulators alone, and one that succeeds ends with the tick. -/
theorem stepKeepsAccumulatorBound : Obligations.StepKeepsAccumulatorBound := by
  refine fun s t h => ⟨fun hs => step_keeps_accBounded hs h, fun hok => ?_⟩
  obtain ⟨-, _, u, -, -, -, rfl⟩ := (step_running_iff h).mp ((cycleOk_iff s t).mp hok)
  exact timerTick_accBounded u

/-! ## What a successful cycle leaves in the timers (R96, R204) -/

/-- The delay timer the tick of this cycle finds: what MOV DT,Vx wrote, or else the timer before the cycle. -/
def State.dtBeforeTick (s : State) : Byte :=
  match s.fetch.bind decodeWord with
  | some (.movDTV o) => s.readV o.x
  | _ => s.dt

/-- The sound timer the tick of this cycle finds: what MOV ST,Vx wrote, or else the timer before the cycle. -/
def State.stBeforeTick (s : State) : Byte :=
  match s.fetch.bind decodeWord with
  | some (.movSTV o) => s.readV o.x
  | _ => s.st

theorem exec_dt {i : Instr} {s t : State} (hi : s.fetch.bind decodeWord = some i) (h : exec i s = .next t) :
    t.dt = s.dtBeforeTick := by
  rw [State.dtBeforeTick, hi]
  cases i with
  | movDTV o =>
    obtain rfl := Host.Outcome.next.inj h
    rfl
  | _ => exact execChangesOnlyListedElements _ s t h .dt (by simp [instrWrites])

theorem exec_st {i : Instr} {s t : State} (hi : s.fetch.bind decodeWord = some i) (h : exec i s = .next t) :
    t.st = s.stBeforeTick := by
  rw [State.stBeforeTick, hi]
  cases i with
  | movSTV o =>
    obtain rfl := Host.Outcome.next.inj h
    rfl
  | _ => exact execChangesOnlyListedElements _ s t h .st (by simp [instrWrites])

/-- The test of R181 as the rule writes it, on an incremented accumulator. -/
theorem div_succ_le_sixty_iff (rate acc : Nat) : rate / (acc + 1) ≤ 60 ↔ rate < 61 * (acc + 1) := by
  rw [← Nat.lt_succ_iff, Nat.div_lt_iff_lt_mul (Nat.succ_pos acc)]

/-- Settles O15: the cycle is a routine and the tick, and the tick finds the accumulators and the rate of before the cycle. -/
theorem successfulCycleTicksTimers : Obligations.SuccessfulCycleTicksTimers := by
  intro s t hs h ht
  obtain ⟨-, i, u, hi, hu, -, rfl⟩ := (step_running_iff h).mp ⟨hs, ht⟩
  obtain ⟨hrate, hdtAcc, hstAcc⟩ := exec_keeps_accumulators hu
  simp only [div_succ_le_sixty_iff, ← hrate, ← hdtAcc, ← hstAcc]
  refine ⟨nextAcc_eq _ _, ?dt, nextAcc_eq _ _, ?st⟩
  case dt =>
    have hdt : u.dt = s.dtBeforeTick := exec_dt hi hu
    rw [State.timerTick_dt, nextTimer_toNat, hdt]
    rfl
  case st =>
    have hst : u.st = s.stBeforeTick := exec_st hi hu
    rw [State.timerTick_st, nextTimer_toNat, hst]
    rfl

/-! ## The period of a timer (R182) -/

/-- `P`: how many ticks take one from a timer. -/
def tickPeriod (rate : BitVec 32) : Nat := rate.toNat / 61 + 1

/-- A timer and its accumulator `n` ticks after the accumulator was zero and the timer `t0`. -/
structure TimerAt (rate : BitVec 32) (t0 : Byte) (n : Nat) (t : Byte) (acc : Nat) : Prop where
  timer : t.toNat = t0.toNat - n / tickPeriod rate
  acc : acc = n % tickPeriod rate

/-- The test of R181 holds from the last tick of a period on. -/
theorem due_iff_period_le (rate : BitVec 32) (acc : Nat) : rate.toNat < 61 * (acc + 1) ↔ tickPeriod rate ≤ acc + 1 := by
  rw [Nat.mul_comm, ← Nat.div_lt_iff_lt_mul (by decide), tickPeriod, Nat.succ_le_iff]

theorem TimerAt.start {rate : BitVec 32} {t0 : Byte} {acc : Nat} (h : acc = 0) : TimerAt rate t0 0 t0 acc :=
  ⟨by simp, by simp [h]⟩

/-- One tick counts one on: inside a period the accumulator grows, and at its end it is zero and the timer one less. -/
theorem TimerAt.tick {rate : BitVec 32} {t0 t : Byte} {n acc : Nat} (h : TimerAt rate t0 n t acc) :
    TimerAt rate t0 (n + 1) (nextTimer rate acc t) (nextAcc rate acc) := by
  obtain ⟨htimer, hacc⟩ := h
  have hpos : 0 < tickPeriod rate := Nat.succ_pos _
  have hlt : acc < tickPeriod rate := hacc ▸ Nat.mod_lt n hpos
  have hn : acc + tickPeriod rate * (n / tickPeriod rate) = n := by rw [hacc, Nat.mod_add_div]
  by_cases hdue : tickPeriod rate ≤ acc + 1
  · obtain ⟨hdiv, hmod⟩ : (n + 1) / tickPeriod rate = n / tickPeriod rate + 1 ∧ (n + 1) % tickPeriod rate = 0 :=
      (Nat.div_mod_unique hpos).mpr ⟨by rw [Nat.mul_succ]; omega, hpos⟩
    have hd := (due_iff_period_le rate acc).mpr hdue
    exact ⟨by rw [nextTimer_toNat, if_pos hd, htimer, hdiv, Nat.sub_sub], by rw [nextAcc_eq, if_pos hd, hmod]⟩
  · obtain ⟨hdiv, hmod⟩ : (n + 1) / tickPeriod rate = n / tickPeriod rate ∧ (n + 1) % tickPeriod rate = acc + 1 :=
      (Nat.div_mod_unique hpos).mpr ⟨by omega, Nat.not_le.mp hdue⟩
    have hd := (due_iff_period_le rate acc).not.mpr hdue
    exact ⟨by rw [nextTimer_toNat, if_neg hd, htimer, hdiv], by rw [nextAcc_eq, if_neg hd, hmod]⟩

theorem State.iterate_timerTick_masterClockRate (s : State) (n : Nat) :
    (State.timerTick^[n] s).masterClockRate = s.masterClockRate := by
  induction n with
  | zero => rfl
  | succ n ih => rw [Function.iterate_succ_apply', State.timerTick_masterClockRate, ih]

theorem State.iterate_timerTick_dt (s : State) (n : Nat) (h : s.dtAcc = 0) :
    TimerAt s.masterClockRate s.dt n (State.timerTick^[n] s).dt (State.timerTick^[n] s).dtAcc := by
  induction n with
  | zero => exact .start h
  | succ n ih =>
    rw [Function.iterate_succ_apply', State.timerTick_dt, State.timerTick_dtAcc, s.iterate_timerTick_masterClockRate]
    exact ih.tick

theorem State.iterate_timerTick_st (s : State) (n : Nat) (h : s.stAcc = 0) :
    TimerAt s.masterClockRate s.st n (State.timerTick^[n] s).st (State.timerTick^[n] s).stAcc := by
  induction n with
  | zero => exact .start h
  | succ n ih =>
    rw [Function.iterate_succ_apply', State.timerTick_st, State.timerTick_stAcc, s.iterate_timerTick_masterClockRate]
    exact ih.tick

/-- Settles O16: each timer with its accumulator, by induction on the ticks. -/
theorem timerPeriod : Obligations.TimerPeriod := by
  intro s n hdt hst
  obtain ⟨hdtTimer, hdtAcc⟩ := s.iterate_timerTick_dt n hdt
  obtain ⟨hstTimer, hstAcc⟩ := s.iterate_timerTick_st n hst
  exact ⟨hdtTimer, hstTimer, hdtAcc, hstAcc⟩

/-- Settles O17: the periods are 1 and 4 ticks. -/
theorem timerCountsOfTheDocument : Obligations.TimerCountsOfTheDocument := by
  intro s hacc hdt
  have hcount (n : Nat) : (State.timerTick^[n] s).dt.toNat = 255 - n / tickPeriod s.masterClockRate := by
    rw [(s.iterate_timerTick_dt n hacc).timer, hdt]
    rfl
  constructor
  · intro hrate
    have hp : tickPeriod s.masterClockRate = 1 := by rw [hrate]; rfl
    simp only [hp] at hcount
    exact ⟨BitVec.eq_of_toNat_eq (hcount 255), BitVec.eq_of_toNat_eq (hcount 254)⟩
  · intro hrate
    have hp : tickPeriod s.masterClockRate = 4 := by rw [hrate]; rfl
    simp only [hp] at hcount
    exact ⟨BitVec.eq_of_toNat_eq (hcount 1020), BitVec.eq_of_toNat_eq (hcount 1019)⟩

end Sys2Proof.Machine

/-! # Every cycle returns, and the idle loop (70_reset_and_hazards.md) -/

namespace Sys2Proof.Machine

/-- Settles O13: a stopped machine stays as it is, and a running one ends as its cause says: with the fault latched, or without a
fault. -/
theorem everyCycleReturns : Obligations.EveryCycleReturns := by
  intro s
  cases hv : s.fault.valid with
  | true => exact ⟨s, step_of_stopped s hv⟩
  | false =>
    obtain ⟨t, ht, -⟩ := faultsAreExactlyTheListedCauses s hv
    exact ⟨t, ht⟩

/-! ## The jump to itself (R202, D24) -/

/-- `JMP w`, for a word `w` that is an address: below 4096 the operand's 12 bits are the whole of it. -/
def jmpTo (w : Word) : Instr := .jmpA ⟨w.setWidth 12⟩

theorem setWidth_addr_toNat {w : Word} (h : w.toNat < 4096) : (w.setWidth 12).toNat = w.toNat :=
  (BitVec.toNat_setWidth 12 w).trans (Nat.mod_eq_of_lt h)

theorem encode_jmpTo {w : Word} (h : w.toNat < 4096) : encode (jmpTo w) = 0x1000 ||| w := by
  have hop : GroupA.encode ⟨w.setWidth 12⟩ = w :=
    BitVec.eq_of_toNat_eq ((Laws.GroupA_encode_toNat _).trans (setWidth_addr_toNat h))
  exact congrArg (0x1000 ||| ·) hop

theorem decodeWord_jmpTo {w : Word} (h : w.toNat < 4096) : decodeWord (0x1000 ||| w) = some (jmpTo w) := by
  rw [← encode_jmpTo h]
  exact Laws.decodeOfEncodeIsIdentity (jmpTo w) rfl

theorem exec_jmpTo_pc {s : State} (h : s.pc.toNat < 4096) : exec (jmpTo s.pc) s = .next s := by
  have hpc : (s.pc.setWidth 12).setWidth 16 = s.pc :=
    BitVec.eq_of_toNat_eq ((addr_setWidth_toNat _).trans (setWidth_addr_toNat h))
  calc exec (jmpTo s.pc) s = .next (s.jump ((s.pc.setWidth 12).setWidth 16)) := rfl
    _ = .next s := by rw [hpc]; rfl

/-- The tick touches neither `pc` nor memory. -/
theorem State.Idle.timerTick {s : State} (h : s.Idle) : s.timerTick.Idle := h

/-- Settles O59: the routine answers the state itself, so what the cycle does is the tick. -/
theorem idleStaysIdle : Obligations.IdleStaysIdle := by
  intro s hs hidle
  have ⟨hpc, hf⟩ := hidle
  have haddr : s.pc.toNat < 4096 := Nat.lt_succ_of_lt hpc
  have hi : s.fetch.bind decodeWord = some (jmpTo s.pc) := by
    rw [hf]
    exact decodeWord_jmpTo haddr
  exact ⟨step_of_exec_running hs hi (exec_jmpTo_pc haddr) hs, hidle.timerTick, hs, s.timerTick_onlyChanges⟩

end Sys2Proof.Machine
